-- ==== Sys2Proof/Word.lean ====
section
/-! DEFINITION. The word types of the CORE (00_scope.md R7): bytes and 32-bit addresses. -/

namespace Sys2Proof

/-- A u8: a register's contents, an opcode byte, an operand byte, a byte of RAM (R7, R20, R30). -/
abbrev Byte := BitVec 8

/-- A u32: the program counter, an "unsigned 32-bit offset into RAM" (R7, R25). -/
abbrev Addr := BitVec 32

end Sys2Proof
end

