-- ==== Sys2Proof/Machine/Flags.lean ====
section
/-! DEFINITION. The ALU (43_arithmetic.md R140, R141, R143) and what it does about flags: nothing. The CORE
has no flags (10_state.md R31), so each operation is one result, computed exactly on the integers and
reduced mod 256 once; the carry or borrow out of bit 7 is discarded. -/

namespace Sys2Proof.Machine

/-- (a + b + c) mod 256 (R140). -/
def addResult (a b c : Byte) : Byte := BitVec.ofNat 8 (a.toNat + b.toNat + c.toNat)

/-- (a - b - c) mod 256, the least non-negative residue (R10, R141). -/
def subResult (a b c : Byte) : Byte := BitVec.ofInt 8 ((a.toNat : Int) - b.toNat - c.toNat)

end Sys2Proof.Machine
end

