-- ==== Sys2Proof/Syntax.lean ====
section
/-! DEFINITION. The instructions of the CORE (30_encoding.md R62, R70): one constructor per row of the
opcode table, each operand a whole byte (R61, R64). -/

namespace Sys2Proof

/-- The eight opcodes of R70. -/
inductive Opcode where
  | exit
  | store
  | load
  | add
  | sub
  | ifImm
  | jmp
  | dpr
  deriving DecidableEq, Repr

/-- An instruction with its operand bytes. `r`, `d` and `s` are register-index bytes, `imm` is an
immediate byte and `t` a jump-target byte (R13, R64). Every byte value is accepted in every place:
an index at or above NREG is an execution fault, not an encoding error (R64). -/
inductive Instr where
  /-- EXIT (R120). -/
  | exit
  /-- STORE r, imm (R130). -/
  | store (r imm : Byte)
  /-- LOAD r, imm (R131). -/
  | load (r imm : Byte)
  /-- ADD d, s, imm (R140). -/
  | add (d s imm : Byte)
  /-- SUB d, s, imm (R141). -/
  | sub (d s imm : Byte)
  /-- IF r, imm (R150). The label of the assembly form is not in the instruction. -/
  | ifImm (r imm : Byte)
  /-- JMP t (R151). -/
  | jmp (t : Byte)
  /-- DPR r (R160). -/
  | dpr (r : Byte)
  deriving DecidableEq, Repr

/-- The opcode of an instruction. -/
def Instr.opcode : Instr → Opcode
  | .exit => .exit
  | .store _ _ => .store
  | .load _ _ => .load
  | .add _ _ _ => .add
  | .sub _ _ _ => .sub
  | .ifImm _ _ => .ifImm
  | .jmp _ => .jmp
  | .dpr _ => .dpr

/-- The register-index operands, in the order they are encoded and checked (R63, R175). -/
def Instr.regOperands : Instr → List Byte
  | .exit => []
  | .store r _ => [r]
  | .load r _ => [r]
  | .add d s _ => [d, s]
  | .sub d s _ => [d, s]
  | .ifImm r _ => [r]
  | .jmp _ => []
  | .dpr r => [r]

end Sys2Proof
end

