-- ==== Sys2Proof/Decode.lean ====
section
/-! DEFINITION. The decoder of 30_encoding.md R70-R74, total on any bytes, and the encoder after it. -/

namespace Sys2Proof

/-- The opcode map (R70). A byte 0x08 .. 0xFF is no opcode (R71). -/
def Opcode.ofByte? (b0 : Byte) : Option Opcode :=
  match b0.toNat with
  | 0 => some .exit
  | 1 => some .store
  | 2 => some .load
  | 3 => some .add
  | 4 => some .sub
  | 5 => some .ifImm
  | 6 => some .jmp
  | 7 => some .dpr
  | _ => none

/-- NOPER: how many operand bytes follow the opcode byte. It depends on the opcode alone (R60, R73, R74). -/
def Opcode.noper : Opcode → Nat
  | .exit => 0
  | .store => 2
  | .load => 2
  | .add => 3
  | .sub => 3
  | .ifImm => 2
  | .jmp => 1
  | .dpr => 1

/-- The instruction an opcode and its operand bytes make (R74); `b k` is the k-th byte of the
instruction, so `b 1` is the first operand. -/
def Opcode.instr (op : Opcode) (b : Nat → Byte) : Instr :=
  match op with
  | .exit => .exit
  | .store => .store (b 1) (b 2)
  | .load => .load (b 1) (b 2)
  | .add => .add (b 1) (b 2) (b 3)
  | .sub => .sub (b 1) (b 2) (b 3)
  | .ifImm => .ifImm (b 1) (b 2)
  | .jmp => .jmp (b 1)
  | .dpr => .dpr (b 1)

/-- Why bytes are not an instruction. -/
inductive DecodeError where
  /-- There is no opcode byte. -/
  | noBytes
  /-- The opcode byte is illegal (R71). -/
  | unknownOpcode (b0 : Byte)
  /-- The opcode is legal and fewer than NOPER operand bytes follow it. -/
  | missingOperands (op : Opcode)
  deriving DecidableEq, Repr

/-- Decode the instruction at the head of a byte list and return it with the bytes after it (R74).
The opcode byte is looked at before any operand byte (R71). -/
def decode : List Byte → Except DecodeError (Instr × List Byte)
  | [] => .error .noBytes
  | b0 :: rest =>
    match Opcode.ofByte? b0 with
    | none => .error (.unknownOpcode b0)
    | some op =>
      if rest.length < op.noper then .error (.missingOperands op)
      else .ok (op.instr (fun k => (b0 :: rest).getD k 0), rest.drop op.noper)

/-- The opcode byte of an opcode, the other direction of R70. -/
def Opcode.toByte : Opcode → Byte
  | .exit => 0x00
  | .store => 0x01
  | .load => 0x02
  | .add => 0x03
  | .sub => 0x04
  | .ifImm => 0x05
  | .jmp => 0x06
  | .dpr => 0x07

/-- The operand bytes of an instruction, in encoding order (R62, R63). -/
def Instr.operandBytes : Instr → List Byte
  | .exit => []
  | .store r imm => [r, imm]
  | .load r imm => [r, imm]
  | .add d s imm => [d, s, imm]
  | .sub d s imm => [d, s, imm]
  | .ifImm r imm => [r, imm]
  | .jmp t => [t]
  | .dpr r => [r]

/-- The bytes of an instruction as the CORE reads it, lowest address first (R62). JMP is the two-byte
format T (90_conflicts.md C2). -/
def encode (i : Instr) : List Byte := i.opcode.toByte :: i.operandBytes

/-- The first four bytes (the longest instruction) of the number `w`, of which `nbits` bits count and
the rest are 0: byte 0 is bits 7..0, the byte at the lowest address. -/
def tableBytes (nbits w : Nat) : List Byte :=
  (List.range 4).map fun k => BitVec.ofNat 8 (w % 2 ^ nbits / 256 ^ k)

/-- The instruction the decoder reads from a word numbered as spec/opcode_table.json numbers it. -/
def decodeTableWord (nbits w : Nat) : Option Instr :=
  match decode (tableBytes nbits w) with
  | .ok (i, _) => some i
  | .error _ => none

end Sys2Proof
end

