-- ==== Sys2Proof/Config.lean ====
section
/-! DEFINITION. The two parameters the spec leaves open, NREG and RAM_SIZE (00_scope.md R5, R6, R9). -/

namespace Sys2Proof

/-- The parameters of one CORE (R9). The model takes them as arguments: a machine is built for a
configuration by `Machine.State.ofImage`, and no step changes them (R23). -/
structure Config where
  /-- NREG, the register count (R5). -/
  nreg : Nat
  /-- RAM_SIZE, the number of bytes of RAM (R6). -/
  ramSize : Nat
  deriving DecidableEq, Repr

/-- The ranges of R9: 1 <= NREG <= 256 and 1 <= RAM_SIZE <= 2^32 - 1. -/
def Config.wf (c : Config) : Bool :=
  decide (1 ≤ c.nreg) && decide (c.nreg ≤ 256) && decide (1 ≤ c.ramSize) && decide (c.ramSize ≤ 2 ^ 32 - 1)

/-- The spec's test configuration (92_eei_decisions.md D18). DESIGN CHOICE as the configuration of
`Machine.State.reset` (log 1): it is not a value of the hardware. -/
def Config.test : Config := { nreg := 8, ramSize := 256 }

end Sys2Proof
end

