-- ==== Sys2Proof/Machine/State.lean ====
section
/-! DEFINITION. The state of the CORE, all of 10_state.md R39, as plain data; the two reasons the model can
stop; the state after reset. -/

namespace Sys2Proof.Machine

/-- RAM as a list of (address, byte) pairs: addresses strictly rising, no entry equal to what an
unlisted address reads as (`Memory.unlisted`). `Memory.wf` states that form. -/
abbrev Memory := List Host.Cell

/-- The run state (R33). -/
inductive RunState where
  | running
  | halted
  | faulted
  deriving DecidableEq, Repr

/-- The phase of an OutOfBounds fault (R170). -/
inductive BoundsPhase where
  /-- An operand byte lies at or above RAM_SIZE (R104). -/
  | operandFetch
  /-- The new pc is at or above RAM_SIZE (R107). -/
  | pcAdvance
  deriving DecidableEq, Repr

/-- What a fault records beside the address: its kind, each with the `info` that R170 gives that kind. -/
inductive FaultCause where
  /-- UnknownInstruction; info is the opcode byte (R102). -/
  | unknownInstruction (b0 : Byte)
  /-- InvalidRegister; info is the offending index byte (R171). -/
  | invalidRegister (index : Byte)
  /-- OutOfBounds; info is the phase and the out-of-range address (R104, R107). -/
  | outOfBounds (phase : BoundsPhase) (address : Nat)
  deriving DecidableEq, Repr

/-- The fault record of R34. -/
structure FaultRecord where
  /-- The record's kind and info. -/
  cause : FaultCause
  /-- The spec's field `at`: the address of the opcode byte of the instruction that faulted. -/
  opcodeAddr : Addr
  deriving DecidableEq, Repr

/-- One event DebugOut(i, v) of the debug output (R35). -/
structure DebugEvent where
  /-- The register index i. -/
  index : Byte
  /-- The value v that was read. -/
  value : Byte
  deriving DecidableEq, Repr

/-- The whole state of the CORE (R39). NREG is the length of `regs` (R20: a fixed-size array; R23: it
never changes size) and RAM_SIZE is `ramSize`. -/
@[ext]
structure State where
  /-- The register file x[0] .. x[NREG-1] (R20). -/
  regs : List Byte
  /-- The program counter (R25). -/
  pc : Addr
  /-- The parameter RAM_SIZE (R6); no step changes it (R23). -/
  ramSize : Nat
  /-- RAM (R30). -/
  mem : Memory
  /-- The run state (R33). -/
  run : RunState
  /-- The fault record, or none (R34). -/
  fault : Option FaultRecord
  /-- The debug output, oldest event first (R35). -/
  debugOut : List DebugEvent
  deriving DecidableEq, Repr

/-- Why the model stops without a next state. The CORE's own faults (R170) are not here: taking one is
a NEXT state, `State.raise`. -/
inductive Fault where
  /-- Raised by `step` in the run states Halted and Faulted, where no step is enabled (R100, D17: stuck).
  Safe: there is no next state in the machine either. -/
  | noStepEnabled
  /-- Raised by `step` when the run state is Running and pc is at or above RAM_SIZE, an address that is
  not memory (R47). Safe: no run reaches such a state (R28), and the model only stops there. -/
  | fetchOutsideRam
  deriving DecidableEq, Repr

/-- Why the model has no meaning for an instruction. -/
inductive Refusal where
  /-- An arm of `exec` with no meaning yet. Safe: the model stops. No arm of this model raises it. -/
  | notModelled (mnemonic : String)
  deriving DecidableEq, Repr

/-- NREG (R20): the number of registers. -/
def State.nreg (s : State) : Nat := s.regs.length

/-- The machine right after reset (R39, R200) with an empty image, in the configuration of
`Config.test` (log 1): registers 0, pc 0, RAM all 0x00, Running, no fault, no debug event. -/
def State.reset : State where
  regs := List.replicate Config.test.nreg 0
  pc := 0
  ramSize := Config.test.ramSize
  mem := []
  run := .running
  fault := none
  debugOut := []

end Sys2Proof.Machine
end

