-- ==== Sys2Proof/Machine/Ops.lean ====
section
/-! DEFINITION. The named operations over RAM, registers, pc, run state, fault record and debug output
(00_scope.md R12), raising a fault (60_exceptions.md R172), the reset loader (70_reset_and_hazards.md
R200) and fetching an instruction (40_execution_loop.md R101-R104). -/

namespace Sys2Proof.Machine

/-! ## RAM -/

/-- What an address that is not listed reads as: RAM past the image is 0x00 at reset (R200, D3; log 3). -/
def Memory.unlisted : Byte := 0x00

/-- The byte at an address. -/
def Memory.read : Memory → Nat → Byte
  | [], _ => Memory.unlisted
  | (b, w) :: m, a => if a = b then w else Memory.read m a

/-- Write one byte and keep the canonical form: writing the unlisted value removes the entry. -/
def Memory.write : Memory → Nat → Byte → Memory
  | [], a, v => if v = Memory.unlisted then [] else [(a, v)]
  | (b, w) :: m, a, v =>
    if a < b then (if v = Memory.unlisted then (b, w) :: m else (a, v) :: (b, w) :: m)
    else if a = b then (if v = Memory.unlisted then m else (a, v) :: m)
    else (b, w) :: Memory.write m a v

/-- The canonical form: addresses strictly rising and no entry equal to the unlisted value. -/
def Memory.wf : Memory → Bool
  | [] => true
  | (a, v) :: m => decide (v ≠ Memory.unlisted) && m.all (fun c => decide (a < c.1)) && Memory.wf m

/-- MemRead(addr, 1) (R12, R42). The step rule uses it only for addr < RAM_SIZE. -/
def State.memRead (s : State) (a : Nat) : Byte := Memory.read s.mem a

/-- MemWrite(addr, 1, v) (R12), for addr < RAM_SIZE; an address at or above RAM_SIZE is not memory (R47)
and nothing is written. Only the reset loader uses it (R43, R54). -/
def State.memWrite (s : State) (a : Nat) (v : Byte) : State :=
  if a < s.ramSize then { s with mem := Memory.write s.mem a v } else s

/-- Write bytes at increasing addresses from `a` on. -/
def State.memWriteBytes (s : State) (a : Nat) : List Byte → State
  | [] => s
  | v :: vs => State.memWriteBytes (s.memWrite a v) (a + 1) vs

/-- The `n` bytes of RAM from `a` on, lowest address first. -/
def State.memReadBytes (s : State) (a n : Nat) : List Byte :=
  (List.range n).map fun k => s.memRead (a + k)

/-! ## Registers, debug output -/

/-- x[i] (R12), for i < NREG; every use is behind `State.checkReg` (R21). -/
def State.reg (s : State) (i : Byte) : Byte := s.regs.getD i.toNat 0

/-- x[i] <- v (R12), for i < NREG. No register is hardwired or special (R20). -/
def State.writeReg (s : State) (i v : Byte) : State := { s with regs := s.regs.set i.toNat v }

/-- emit DebugOut(i, v) (R12, R35): append one event. -/
def State.emit (s : State) (i v : Byte) : State := { s with debugOut := s.debugOut ++ [⟨i, v⟩] }

/-! ## Faults and halting -/

/-- raise Fault(kind, info) in the instruction whose opcode byte is at `opcodeAddr` (R12, R172, R177): the
run state becomes Faulted, the record is set, and nothing else changes. -/
def State.raiseAt (s : State) (opcodeAddr : Addr) (c : FaultCause) : State :=
  { s with run := .faulted, fault := some ⟨c, opcodeAddr⟩ }

/-- A fault raised before the advance, while pc still holds the instruction's address (R25, R176). -/
def State.raise (s : State) (c : FaultCause) : State := s.raiseAt s.pc c

/-- halt (R12, R120): the run state becomes Halted. -/
def State.halt (s : State) : State := { s with run := .halted }

/-! ## The advance -/

/-- pc <- next_pc and then the bounds check (R106, R107). `nextPc` is computed on unbounded integers
(R10), so it never wraps: at or above RAM_SIZE it faults, with pc and every earlier write kept. -/
def State.advanceTo (s : State) (nextPc : Nat) : State :=
  let s' := { s with pc := BitVec.ofNat 32 nextPc }
  if nextPc < s.ramSize then s' else s'.raiseAt s.pc (.outOfBounds .pcAdvance nextPc)

/-- The advance by a fixed delta (R106). -/
def State.advanceBy (s : State) (delta : Nat) : State := s.advanceTo (s.pc.toNat + delta)

/-! ## Reset -/

/-- reset(image) of R200 for a configuration: a fresh state, RAM loaded from offset 0 with at most
RAM_SIZE bytes of the image (R201) and 0x00 after it. -/
def State.ofImage (c : Config) (image : List Byte) : State :=
  State.memWriteBytes
    { regs := List.replicate c.nreg 0, pc := 0, ramSize := c.ramSize, mem := [], run := .running,
      fault := none, debugOut := [] }
    0 (image.take c.ramSize)

/-- The configuration a state was built for; no step changes it (R23). -/
def State.config (s : State) : Config := { nreg := s.nreg, ramSize := s.ramSize }

/-! ## Fetch -/

/-- A step is enabled in the run state Running (R100); the opcode byte is then read at pc, which is below
RAM_SIZE in every state a run reaches (R28, R101). -/
def State.stepEnabled (s : State) : Bool :=
  decide (s.run = .running) && decide (s.pc.toNat < s.ramSize)

/-- The answer where no step is enabled: a stuck state, by name (R100, D17; log 5 and log 6). -/
def State.noStep (s : State) : Host.Outcome State Fault Refusal :=
  match s.run with
  | .running => .fault .fetchOutsideRam
  | .halted => .fault .noStepEnabled
  | .faulted => .fault .noStepEnabled

/-- Fetch and decode the instruction at pc (R101-R104): an illegal opcode byte is found before any operand
byte is looked at, and an operand byte outside RAM before any operand byte is read. -/
def State.fetchInstr (s : State) : Except FaultCause Instr :=
  let b0 := s.memRead s.pc.toNat
  match Opcode.ofByte? b0 with
  | none => .error (.unknownInstruction b0)
  | some op =>
    if s.pc.toNat + op.noper < s.ramSize then .ok (op.instr fun k => s.memRead (s.pc.toNat + k))
    else .error (.outOfBounds .operandFetch s.ramSize)

/-! ## The host-visible codes -/

/-- The host-visible encoding of the run state (R33). -/
def RunState.code : RunState → Nat
  | .running => 0
  | .halted => 1
  | .faulted => 2

/-- The code of a fault's kind (R34, R170). -/
def FaultCause.code : FaultCause → Nat
  | .unknownInstruction _ => 1
  | .invalidRegister _ => 2
  | .outOfBounds _ _ => 3

end Sys2Proof.Machine
end

