-- ==== Sys2Proof/WellFormed.lean ====
section
/-! DEFINITION. When an instruction is well formed for a register file: every register index it holds
names a register (10_state.md R21, R23: "all indices must be validated before use"). As a term of
`Instr` every operand is a byte already, and the decoder accepts every byte (30_encoding.md R64), so
this is the one check an instruction can fail; an instruction that fails it still executes, and its
effect is the InvalidRegister fault (60_exceptions.md R171). -/

namespace Sys2Proof

/-- The index byte `i` names a register of a file of `nreg` registers (R21). -/
def regIndexOk (nreg : Nat) (i : Byte) : Bool := decide (i.toNat < nreg)

/-- Every register index of the instruction is valid in a file of `nreg` registers (R21). -/
def Instr.wf (nreg : Nat) (i : Instr) : Bool := i.regOperands.all (regIndexOk nreg)

end Sys2Proof
end

