-- ==== Sys2Proof/Machine/Operands.lean ====
section
/-! DEFINITION. The operand forms of 30_encoding.md R64: a register index checked against NREG, a jump
target zero-extended to an address. An immediate is its byte as it stands and needs no operation. -/

namespace Sys2Proof.Machine

/-- checkReg(i) (R108, R171): an index at or above NREG faults with InvalidRegister before anything is
written; otherwise the instruction goes on to `next`. -/
def State.checkReg (s : State) (i : Byte) (next : State) : State :=
  if regIndexOk s.nreg i then next else s.raise (.invalidRegister i)

/-- zext_32(t), the absolute address a target byte names (R11, R64, R151). -/
def jumpTarget (t : Byte) : Nat := (t.setWidth 32).toNat

end Sys2Proof.Machine
end

