-- ==== Sys2Proof/Machine/Arithmetic.lean ====
section
/-! DEFINITION. The meanings of ADD and SUB (43_arithmetic.md). -/

namespace Sys2Proof.Machine

/-- The effect the two instructions share: check d and then s (R175), read both registers, write the
result to d (R142), advance by 4. -/
def arithmetic (op : Byte → Byte → Byte → Byte) (d src imm : Byte) (s : State) : State :=
  s.checkReg d (s.checkReg src ((s.writeReg d (op (s.reg d) (s.reg src) imm)).advanceBy 4))

/-- ADD d, s, imm (R140). -/
def execAdd (d src imm : Byte) (s : State) : Host.Outcome State Fault Refusal :=
  .next (arithmetic addResult d src imm s)

/-- SUB d, s, imm (R141). -/
def execSub (d src imm : Byte) (s : State) : Host.Outcome State Fault Refusal :=
  .next (arithmetic subResult d src imm s)

end Sys2Proof.Machine
end

