-- ==== Sys2Proof/Machine/Control.lean ====
section
/-! DEFINITION. The meanings of IF and JMP (44_control.md), as documented and not repaired (D9). -/

namespace Sys2Proof.Machine

/-- IF r, imm (R150): the index is checked; the comparison of x[r] with the immediate is discarded, since
no state depends on it (D19; log 13); pc always advances by 3. -/
def execIf (r _imm : Byte) (s : State) : Host.Outcome State Fault Refusal := .next (s.checkReg r (s.advanceBy 3))

/-- JMP t (R151): pc <- zext_32(t), an absolute address. -/
def execJmp (t : Byte) (s : State) : Host.Outcome State Fault Refusal := .next (s.advanceTo (jumpTarget t))

end Sys2Proof.Machine
end

