-- ==== Sys2Proof/Machine/DebugPrint.lean ====
section
/-! DEFINITION. The meaning of DPR (45_debug.md). -/

namespace Sys2Proof.Machine

/-- DPR r (R160): append DebugOut(r, x[r]) to the debug output and advance by 2. -/
def execDpr (r : Byte) (s : State) : Host.Outcome State Fault Refusal :=
  .next (s.checkReg r ((s.emit r (s.reg r)).advanceBy 2))

end Sys2Proof.Machine
end

