-- ==== Sys2Proof/Machine/Halt.lean ====
section
/-! DEFINITION. The meaning of EXIT (41_halt.md). -/

namespace Sys2Proof.Machine

/-- EXIT (R120): halt; no advance and no bounds check, so pc stays at the EXIT byte (R176). -/
def execExit (s : State) : Host.Outcome State Fault Refusal := .next s.halt

end Sys2Proof.Machine
end

