-- ==== Sys2Proof/Machine/RegisterWrite.lean ====
section
/-! DEFINITION. The meanings of STORE and LOAD (42_register_write.md). Neither touches RAM. -/

namespace Sys2Proof.Machine

/-- The effect the two instructions share: check the index, write the immediate, advance by 3. -/
def writeImmediate (r imm : Byte) (s : State) : State :=
  s.checkReg r ((s.writeReg r imm).advanceBy 3)

/-- STORE r, imm (R130). -/
def execStore (r imm : Byte) (s : State) : Host.Outcome State Fault Refusal := .next (writeImmediate r imm s)

/-- LOAD r, imm (R131): the same effect as STORE. -/
def execLoad (r imm : Byte) (s : State) : Host.Outcome State Fault Refusal := .next (writeImmediate r imm s)

end Sys2Proof.Machine
end

