-- ==== Sys2Proof/Machine/Dispatch.lean ====
section
/-! DEFINITION. The execute phase of each instruction with its advance and bounds check (40_execution_loop.md
R105-R107): one arm per instruction. -/

namespace Sys2Proof.Machine

def exec (i : Instr) (s : State) : Host.Outcome State Fault Refusal :=
  match i with
  | .exit => Sys2Proof.Machine.execExit s
  | .store r imm => Sys2Proof.Machine.execStore r imm s
  | .load r imm => Sys2Proof.Machine.execLoad r imm s
  | .add d src imm => Sys2Proof.Machine.execAdd d src imm s
  | .sub d src imm => Sys2Proof.Machine.execSub d src imm s
  | .ifImm r imm => Sys2Proof.Machine.execIf r imm s
  | .jmp t => Sys2Proof.Machine.execJmp t s
  | .dpr r => Sys2Proof.Machine.execDpr r s

end Sys2Proof.Machine
end

