-- ==== Sys2Proof/Machine/Step.lean ====
section
/-! DEFINITION. The step of the CORE (40_execution_loop.md R108), and placing an instruction where the next
step fetches it. -/

namespace Sys2Proof.Machine

/-- One step (R108): fetch, decode, operand bounds, then the instruction. A fault found while fetching
leaves pc at the opcode byte (R176). -/
def step (s : State) : Host.Outcome State Fault Refusal :=
  if s.stepEnabled then
    match s.fetchInstr with
    | .ok i => exec i s
    | .error c => .next (s.raise c)
  else s.noStep

/-- Store the instruction numbered `w` (at most four bytes) at pc, where the next step fetches. It stands
for the load of a program (log 4); bytes at or above RAM_SIZE are not memory and are not stored. -/
def State.withFetchWord (s : State) (nbits w : Nat) : State :=
  s.memWriteBytes s.pc.toNat (tableBytes nbits w)

end Sys2Proof.Machine
end

