-- ==== Sys2Proof/Machine/Assembler.lean ====
section
/-! DEFINITION. The assembler of 30_encoding.md section 7 (R80-R91): what source text it accepts and what bytes
it emits. It is a tool outside the CORE (00_scope.md R4); nothing in the machine calls it. Two things the
source does not give are arguments: MAX_LABELS (00_scope.md R8) and which character lists are identifiers
(91_not_in_source.md). -/

namespace Sys2Proof.Machine

/-- Why assembly aborts (R89). Every one is fatal: no bytes are produced. -/
inductive AsmError where
  /-- "malformed operand count", an error "naming the offending line" (R85): `line` is that line's number in
  the source text, the first line being 1 (log 16). -/
  | operandCount (line : Nat)
  /-- "invalid register token", an index above 255 included (R83, D22). -/
  | badRegister
  /-- "out-of-range immediate" or a non-numeric one (R84). -/
  | badImmediate
  /-- "unknown mnemonic" (R82, R85). -/
  | unknownMnemonic
  /-- "too many labels" (R87). -/
  | tooManyLabels
  /-- "unresolved label reference" (R87, D23). -/
  | unresolvedLabel
  /-- Two declarations of one name. R81 says names are unique and not what happens otherwise: DESIGN CHOICE
  (log 16), safe, since the model then produces no bytes. -/
  | duplicateLabel
  deriving DecidableEq, Repr

/-- An instruction line, parsed. IF and JMP name a label that is not encoded (R85). -/
inductive AsmInstr where
  | exit
  | store (r imm : Byte)
  | load (r imm : Byte)
  | add (d s imm : Byte)
  | sub (d s imm : Byte)
  | ifImm (r imm : Byte) (label : List Char)
  | jmp (label : List Char)
  | dpr (r : Byte)
  deriving DecidableEq, Repr

/-- The bytes emitted for an instruction line (R85): for JMP the opcode byte alone (R88). -/
def AsmInstr.bytes : AsmInstr → List Byte
  | .exit => [0x00]
  | .store r imm => [0x01, r, imm]
  | .load r imm => [0x02, r, imm]
  | .add d s imm => [0x03, d, s, imm]
  | .sub d s imm => [0x04, d, s, imm]
  | .ifImm r imm _ => [0x05, r, imm]
  | .jmp _ => [0x06]
  | .dpr r => [0x07, r]

/-- The label an instruction line refers to. -/
def AsmInstr.label? : AsmInstr → Option (List Char)
  | .ifImm _ _ l => some l
  | .jmp l => some l
  | .exit => none
  | .store _ _ => none
  | .load _ _ => none
  | .add _ _ _ => none
  | .sub _ _ _ => none
  | .dpr _ => none

/-! ## Tokens -/

/-- A "decimal integer literal" (R83, R84): one or more digits. -/
def parseDecimal (t : List Char) : Option Nat :=
  if t ≠ [] ∧ t.all Char.isDigit then some (t.foldl (fun n c => 10 * n + (c.toNat - 48)) 0) else none

/-- The byte a number stands for, if it fits. -/
def asByte (n : Nat) : Option Byte := if n < 256 then some (BitVec.ofNat 8 n) else none

/-- A register token: `R` or `r` and a decimal index of at most 255 (R83, D22). -/
def parseRegister : List Char → Except AsmError Byte
  | c :: ds =>
    if c = 'R' ∨ c = 'r' then
      match (parseDecimal ds).bind asByte with
      | some b => .ok b
      | none => .error .badRegister
    else .error .badRegister
  | [] => .error .badRegister

/-- An immediate token: a decimal integer in [0, 255] (R84). -/
def parseImmediate (t : List Char) : Except AsmError Byte :=
  match (parseDecimal t).bind asByte with
  | some b => .ok b
  | none => .error .badImmediate

/-- A trailing comma of an operand token is removed (R82, D21). -/
def stripComma (t : List Char) : List Char := if t.getLast? = some ',' then t.dropLast else t

/-- The mnemonics, matched case-sensitively and exactly (R82). -/
def mnemonicOf? (t : List Char) : Option Opcode :=
  if t = ['E', 'X', 'I', 'T'] then some .exit
  else if t = ['S', 'T', 'O', 'R', 'E'] then some .store
  else if t = ['L', 'O', 'A', 'D'] then some .load
  else if t = ['A', 'D', 'D'] then some .add
  else if t = ['S', 'U', 'B'] then some .sub
  else if t = ['I', 'F'] then some .ifImm
  else if t = ['J', 'M', 'P'] then some .jmp
  else if t = ['D', 'P', 'R'] then some .dpr
  else none

/-- How many operand tokens the syntax of a mnemonic has (R85), the label of IF and JMP among them. -/
def asmOperandCount : Opcode → Nat
  | .exit => 0
  | .store => 2
  | .load => 2
  | .add => 3
  | .sub => 3
  | .ifImm => 3
  | .jmp => 1
  | .dpr => 1

/-- Parse the operands `ops` of the instruction on the line numbered `line` (R85). -/
def parseOperands (line : Nat) (op : Opcode) (ops : List (List Char)) : Except AsmError AsmInstr :=
  match op, ops with
  | .exit, [] => .ok .exit
  | .store, [r, v] => do return .store (← parseRegister r) (← parseImmediate v)
  | .load, [r, v] => do return .load (← parseRegister r) (← parseImmediate v)
  | .add, [d, s, v] => do return .add (← parseRegister d) (← parseRegister s) (← parseImmediate v)
  | .sub, [d, s, v] => do return .sub (← parseRegister d) (← parseRegister s) (← parseImmediate v)
  | .ifImm, [r, v, l] => do return .ifImm (← parseRegister r) (← parseImmediate v) l
  | .jmp, [l] => .ok (.jmp l)
  | .dpr, [r] => do return .dpr (← parseRegister r)
  | _, _ => .error (.operandCount line)

/-- Parse the tokens of the instruction line numbered `line`: the first is the mnemonic (R82). -/
def parseTokens (line : Nat) : List (List Char) → Except AsmError AsmInstr
  | [] => .error .unknownMnemonic
  | m :: ops =>
    match mnemonicOf? m with
    | none => .error .unknownMnemonic
    | some op => parseOperands line op (ops.map stripComma)

/-! ## Lines -/

/-- A non-empty line (R80): a label declaration, or an instruction line's number and tokens. -/
inductive AsmLine where
  | label (name : List Char)
  | instr (line : Nat) (tokens : List (List Char))
  deriving DecidableEq, Repr

/-- The whitespace-separated tokens of a line (R82). -/
def tokensOf (line : List Char) : List (List Char) :=
  (line.splitOnP Char.isWhitespace).filter fun t => !t.isEmpty

/-- The line numbered `number`, or none if it is empty (R80). "A line consisting solely of an identifier followed by" a colon is
a label declaration (R81); "any other non-empty line is assumed to be one instruction". -/
def classifyLine (isIdent : List Char → Bool) (number : Nat) (line : List Char) : Option AsmLine :=
  match tokensOf line with
  | [] => none
  | [t] => if t.getLast? = some ':' ∧ isIdent t.dropLast then some (.label t.dropLast) else some (.instr number [t])
  | ts => some (.instr number ts)

/-- The non-empty ones of some lines, the first of which has the number given; empty lines are counted. -/
def classifyFrom (isIdent : List Char → Bool) : Nat → List (List Char) → List AsmLine
  | _, [] => []
  | number, l :: ls =>
    match classifyLine isIdent number l with
    | none => classifyFrom isIdent (number + 1) ls
    | some a => a :: classifyFrom isIdent (number + 1) ls

/-- The newline-separated lines of a source text (R80), empty ones included. -/
def rawLines (src : List Char) : List (List Char) := src.splitOnP fun c => c == '\n'

/-- The non-empty lines of a source text, instruction lines with their numbers from 1 on (R80, R85). -/
def linesOf (isIdent : List Char → Bool) (src : List Char) : List AsmLine := classifyFrom isIdent 1 (rawLines src)

/-! ## The two passes -/

/-- Label names with their addresses. No address reaches the image (R88). -/
abbrev LabelTable := List (List Char × Nat)

/-- Pass 1 (R86): a counter that starts at 0 and advances by 3 for every instruction line gives each declared
label its address. More than `maxLabels` labels is fatal (R87). -/
def passOne (maxLabels : Nat) : Nat → LabelTable → List AsmLine → Except AsmError LabelTable
  | _, labels, [] => .ok labels
  | counter, labels, .label name :: rest =>
    if labels.any (fun p => p.1 == name) then .error .duplicateLabel
    else if maxLabels ≤ labels.length then .error .tooManyLabels
    else passOne maxLabels counter (labels ++ [(name, counter)]) rest
  | counter, labels, .instr _ _ :: rest => passOne maxLabels (counter + 3) labels rest

/-- Re-register a label at a position (R88). -/
def reRegister (labels : LabelTable) (name : List Char) (position : Nat) : LabelTable :=
  labels.map fun p => if p.1 = name then (name, position) else p

/-- Pass 2 (R85, R88): emit the bytes of every instruction line in order. A label that IF or JMP names must
have been declared (R87, D23); its entry is re-registered at the position after the instruction. -/
def passTwo : Nat → LabelTable → List AsmLine → Except AsmError (List Byte)
  | _, _, [] => .ok []
  | position, labels, .label _ :: rest => passTwo position labels rest
  | position, labels, .instr line tokens :: rest =>
    match parseTokens line tokens with
    | .error e => .error e
    | .ok i =>
      let position' := position + i.bytes.length
      let resolved : Except AsmError LabelTable :=
        match i.label? with
        | none => .ok labels
        | some l =>
          if labels.any (fun p => p.1 == l) then .ok (reRegister labels l position') else .error .unresolvedLabel
      match resolved with
      | .error e => .error e
      | .ok labels' =>
        match passTwo position' labels' rest with
        | .error e => .error e
        | .ok bytes => .ok (i.bytes ++ bytes)

/-- Assemble a source text: the image, or the first error (R89). -/
def assemble (maxLabels : Nat) (isIdent : List Char → Bool) (src : List Char) : Except AsmError (List Byte) :=
  let lines := linesOf isIdent src
  match passOne maxLabels 0 [] lines with
  | .error e => .error e
  | .ok labels => passTwo 0 labels lines

/-! ## Lines that name no label (R91) -/

/-- The instruction an instruction line without a label stands for; none for IF and JMP, which name one. -/
def AsmInstr.toInstr? : AsmInstr → Option Instr
  | .exit => some .exit
  | .store r imm => some (.store r imm)
  | .load r imm => some (.load r imm)
  | .add d s imm => some (.add d s imm)
  | .sub d s imm => some (.sub d s imm)
  | .ifImm _ _ _ => none
  | .jmp _ => none
  | .dpr r => some (.dpr r)

/-- The instruction that a line stands for, if the line parses and neither declares nor names a label. -/
def AsmLine.toInstr? : AsmLine → Option Instr
  | .label _ => none
  | .instr line tokens =>
    match parseTokens line tokens with
    | .ok i => i.toInstr?
    | .error _ => none

/-! ## Canonical source text of label-free instructions (R85, R91) -/

/-- One decimal digit. -/
def digitChar (n : Nat) : Char := Char.ofNat (48 + n % 10)

/-- A byte in decimal without leading zeros. -/
def decimalOf (b : Byte) : List Char :=
  let n := b.toNat
  if n < 10 then [digitChar n]
  else if n < 100 then [digitChar (n / 10), digitChar n]
  else [digitChar (n / 100), digitChar (n / 10), digitChar n]

/-- The source line of an instruction that names no label (R85); IF and JMP have none. -/
def sourceLine? : Instr → Option (List Char)
  | .exit => some ['E', 'X', 'I', 'T']
  | .store r imm => some (['S', 'T', 'O', 'R', 'E', ' ', 'R'] ++ decimalOf r ++ [',', ' '] ++ decimalOf imm)
  | .load r imm => some (['L', 'O', 'A', 'D', ' ', 'R'] ++ decimalOf r ++ [',', ' '] ++ decimalOf imm)
  | .add d s imm =>
    some (['A', 'D', 'D', ' ', 'R'] ++ decimalOf d ++ [',', ' ', 'R'] ++ decimalOf s ++ [',', ' '] ++ decimalOf imm)
  | .sub d s imm =>
    some (['S', 'U', 'B', ' ', 'R'] ++ decimalOf d ++ [',', ' ', 'R'] ++ decimalOf s ++ [',', ' '] ++ decimalOf imm)
  | .ifImm _ _ => none
  | .jmp _ => none
  | .dpr r => some (['D', 'P', 'R', ' ', 'R'] ++ decimalOf r)

/-- Source lines as one text, a newline after each (R80). -/
def sourceText (lines : List (List Char)) : List Char := lines.flatMap fun l => l ++ ['\n']

end Sys2Proof.Machine
end

