-- ==== Sys2Proof/Machine/Interface.lean ====
section
/-! DEFINITION. The interface of the CORE block (40_execution_loop.md R113): the host's two commands and the
outputs it may read between steps. -/

namespace Sys2Proof.Machine

/-- The host's moves. It has no other: it cannot write a register, pc or RAM (R54, R113). -/
inductive Command where
  /-- reset(image), allowed in any run state (R113, R200). -/
  | reset (image : List Byte)
  /-- One step, if one is enabled (R100, R113). -/
  | step
  deriving DecidableEq, Repr

/-- The step command: "has no effect unless the run state is Running" (R113). -/
def State.stepCommand (s : State) : State :=
  match step s with
  | .next t => t
  | .fault _ => s
  | .refused _ => s

/-- What a command does. A reset keeps the parameters and nothing else (R200, R202). -/
def Command.apply (c : Command) (s : State) : State :=
  match c with
  | .reset image => State.ofImage s.config image
  | .step => s.stepCommand

/-- The outputs of R113, each read-only. -/
structure Outputs where
  /-- Running = 0, Halted = 1, Faulted = 2. -/
  run : Nat
  /-- The fault record, if there is one. -/
  fault : Option FaultRecord
  /-- The program counter. -/
  pc : Addr
  /-- x[0..NREG-1]. -/
  x : List Byte
  /-- mem[0..RAM_SIZE-1]. -/
  mem : List Byte
  /-- The debug events so far. -/
  debugOut : List DebugEvent
  deriving DecidableEq, Repr

/-- What the host reads (R112, R113). -/
def State.outputs (s : State) : Outputs where
  run := s.run.code
  fault := s.fault
  pc := s.pc
  x := s.regs
  mem := s.memReadBytes 0 s.ramSize
  debugOut := s.debugOut

end Sys2Proof.Machine
end

