-- ==== Sys2Proof/Safety.lean ====
section
/-! DEFINITION. The terms claims about runs are stated in: what a fault and an advance leave, the order of the
faults, the invariant of the states a run reaches, runs and their ends. -/

namespace Sys2Proof

/-! ## The registers an instruction reads and writes (R22) -/

/-- The "reads" column of R22's table. -/
def Instr.reads : Instr → List Byte
  | .exit => []
  | .store _ _ => []
  | .load _ _ => []
  | .add d s _ => [d, s]
  | .sub d s _ => [d, s]
  | .ifImm r _ => [r]
  | .jmp _ => []
  | .dpr r => [r]

/-- The "writes" column of R22's table. -/
def Instr.writes : Instr → List Byte
  | .exit => []
  | .store r _ => [r]
  | .load r _ => [r]
  | .add d _ _ => [d]
  | .sub d _ _ => [d]
  | .ifImm _ _ => []
  | .jmp _ => []
  | .dpr _ => []

end Sys2Proof

namespace Sys2Proof.Machine

/-! ## What a step leaves -/

/-- The outcome is the fault `c` of the instruction at pc with nothing else changed (R172, R176, R177). -/
def FaultsWith (o : Host.Outcome State Fault Refusal) (s : State) (c : FaultCause) : Prop :=
  o = .next { s with run := .faulted, fault := some ⟨c, s.pc⟩ }

/-- `t` is where an instruction at `s` that goes on at address `nextPc` leaves pc, run state and fault
record (R106, R107, R176): in RAM it goes on, and at or above RAM_SIZE it faults with pc kept there. -/
def GoesOnAt (s t : State) (nextPc : Nat) : Prop :=
  t.pc = BitVec.ofNat 32 nextPc ∧
  (nextPc < s.ramSize → t.run = s.run ∧ t.fault = s.fault) ∧
  (s.ramSize ≤ nextPc → t.run = .faulted ∧ t.fault = some ⟨.outOfBounds .pcAdvance nextPc, s.pc⟩)

/-- Every register but the one `d` names is as before, and there are as many (R22, R23). -/
def SameRegsExcept (s t : State) (d : Byte) : Prop :=
  t.nreg = s.nreg ∧ ∀ i : Byte, i ≠ d → t.reg i = s.reg i

/-- Every byte of RAM is as before and RAM has the same size (R23, R43). -/
def SameRam (s t : State) : Prop := t.ramSize = s.ramSize ∧ ∀ a, t.memRead a = s.memRead a

/-- The CORE is Running and the bytes of the list stand in RAM from pc on (R61, R100). -/
def RunsAt (s : State) (bytes : List Byte) : Prop :=
  s.run = .running ∧ s.pc.toNat + bytes.length ≤ s.ramSize ∧ s.memReadBytes s.pc.toNat bytes.length = bytes

/-! ## The order of the faults (R175), written from the bytes in RAM alone -/

/-- Where in an instruction the register-index bytes stand, by opcode byte (R62). -/
def indexPlaces (b0 : Nat) : List Nat :=
  if b0 = 3 ∨ b0 = 4 then [1, 2] else if b0 = 0 ∨ b0 = 6 ∨ 8 ≤ b0 then [] else [1]

/-- How many operand bytes an opcode byte has (R73): none for an illegal one, of which the opcode byte alone is
read (R70, R71). -/
def operandCount (b0 : Nat) : Nat :=
  if b0 = 0 ∨ 8 ≤ b0 then 0 else if b0 = 6 ∨ b0 = 7 then 1 else if b0 = 3 ∨ b0 = 4 then 3 else 2

/-- The address an instruction goes on at, by the table of R26; none for EXIT, which does not advance. -/
def nextPcByTable (s : State) : Option Nat :=
  let b0 := (s.memRead s.pc.toNat).toNat
  if b0 = 0 then none
  else if b0 = 6 then some (s.memRead (s.pc.toNat + 1)).toNat
  else some (s.pc.toNat + 1 + operandCount b0)

/-- The one fault a step raises at most, the first of R175's list that applies. -/
def firstFault (s : State) : Option FaultCause :=
  let b0 := s.memRead s.pc.toNat
  if 8 ≤ b0.toNat then some (.unknownInstruction b0)
  else if s.ramSize ≤ s.pc.toNat + operandCount b0.toNat then some (.outOfBounds .operandFetch s.ramSize)
  else
    match ((indexPlaces b0.toNat).map fun k => s.memRead (s.pc.toNat + k)).find? fun i => s.nreg ≤ i.toNat with
    | some i => some (.invalidRegister i)
    | none =>
      match nextPcByTable s with
      | some a => if s.ramSize ≤ a then some (.outOfBounds .pcAdvance a) else none
      | none => none

/-- Apply a function to the next state of an outcome. -/
def mapNext (f : State → State) : Host.Outcome State Fault Refusal → Host.Outcome State Fault Refusal
  | .next t => .next (f t)
  | .fault r => .fault r
  | .refused r => .refused r

/-- Two states that agree on everything but register values and debug output. -/
def SameControl (s t : State) : Prop :=
  t.pc = s.pc ∧ t.mem = s.mem ∧ t.ramSize = s.ramSize ∧ t.nreg = s.nreg ∧ t.run = s.run ∧ t.fault = s.fault

/-! ## The invariant -/

/-- RAM is in canonical form and lists no address outside RAM. -/
def State.memOk (s : State) : Bool := Memory.wf s.mem && s.mem.all fun c => decide (c.1 < s.ramSize)

/-- The fault record's info and address are what R34, R170 and R176 allow, and pc is where R28 and R176
put it. -/
def State.recordOk (s : State) : Bool :=
  match s.fault with
  | none => decide (s.pc.toNat < s.ramSize)
  | some ⟨.unknownInstruction b0, a⟩ =>
    decide (8 ≤ b0.toNat) && decide (a = s.pc) && decide (s.pc.toNat < s.ramSize)
  | some ⟨.invalidRegister i, a⟩ =>
    decide (s.nreg ≤ i.toNat) && decide (a = s.pc) && decide (s.pc.toNat < s.ramSize)
  | some ⟨.outOfBounds .operandFetch b, a⟩ =>
    decide (b = s.ramSize) && decide (a = s.pc) && decide (s.pc.toNat < s.ramSize)
  | some ⟨.outOfBounds .pcAdvance b, a⟩ =>
    decide (b = s.pc.toNat) && decide (s.ramSize ≤ b) && decide (a.toNat < s.ramSize)

/-- The invariant of the states a run reaches: the parameters are in their ranges (R9), RAM is canonical,
a fault record stands exactly in the run state Faulted (R34), the record and pc are as R28, R34, R170
and R176 say, and every debug event names a register (R160). -/
def State.Inv (s : State) : Prop :=
  s.config.wf = true ∧ s.memOk = true ∧ (s.run = .faulted ↔ s.fault.isSome = true) ∧ s.recordOk = true ∧
  s.debugOut.all (fun e => regIndexOk s.nreg e.index) = true

/-! ## Runs and their ends (R111) -/

/-- `t` is the next state of `s`. -/
def StepsTo (s t : State) : Prop := step s = .next t

/-- `t` is reached from `s` by exactly `k` steps. -/
def StepsIn : Nat → State → State → Prop
  | 0, s, t => s = t
  | k + 1, s, t => ∃ u, StepsTo s u ∧ StepsIn k u t

/-- `t` is reached from `s` by some number of steps. -/
def Reaches (s t : State) : Prop := ∃ k, StepsIn k s t

/-- The run from `s` never ends: after any number of steps the run state is still Running (R111). -/
def NeverEnds (s : State) : Prop := ∀ k, ∃ t, StepsIn k s t ∧ t.run = .running

end Sys2Proof.Machine
end

