-- ==== Sys2Proof/Certificates/Slice0/Obligations.lean ====
section
/-! DEFINITION. The statements about the CORE. Every statement is about every NREG and RAM_SIZE (D1, D2). Where a
statement speaks of a fault record's fields, of pc after a fault or of an operand outside RAM, it rests on a
decision of the spec (D4 to D8), named in its docstring. -/

open Sys2Proof Sys2Proof.Machine

/-! ## Encoding -/

/-- 30_encoding.md R62, R70, R74: decoding answers an instruction and the bytes after it exactly when the bytes
are that instruction's encoding followed by those bytes. -/
def Obligations.DecodeIsInverseOfEncode : Prop :=
  ∀ (bs : List Byte) (i : Instr) (rest : List Byte), decode bs = .ok (i, rest) ↔ bs = encode i ++ rest

/-- R70, R74: the decoding of each opcode byte with its operand bytes in their places, and the refusal of every
other opcode byte. -/
def Obligations.OpcodeBytesDecode : Prop :=
  ∀ (a b c b0 : Byte) (rest : List Byte),
    decode (0x00 :: rest) = .ok (.exit, rest) ∧
    decode (0x01 :: a :: b :: rest) = .ok (.store a b, rest) ∧
    decode (0x02 :: a :: b :: rest) = .ok (.load a b, rest) ∧
    decode (0x03 :: a :: b :: c :: rest) = .ok (.add a b c, rest) ∧
    decode (0x04 :: a :: b :: c :: rest) = .ok (.sub a b c, rest) ∧
    decode (0x05 :: a :: b :: rest) = .ok (.ifImm a b, rest) ∧
    decode (0x06 :: a :: rest) = .ok (.jmp a, rest) ∧
    decode (0x07 :: a :: rest) = .ok (.dpr a, rest) ∧
    (8 ≤ b0.toNat → decode (b0 :: rest) = .error (.unknownOpcode b0))

/-- R73: the length of an instruction is a function of its opcode byte, 1, 2, 3 or 4 as the rule lists. -/
def Obligations.LengthIsFixedByTheOpcodeByte : Prop :=
  ∀ (b0 : Byte) (tail : List Byte) (i : Instr) (rest : List Byte), decode (b0 :: tail) = .ok (i, rest) →
    (b0 = 0x00 ∨ b0 = 0x01 ∨ b0 = 0x02 ∨ b0 = 0x03 ∨ b0 = 0x04 ∨ b0 = 0x05 ∨ b0 = 0x06 ∨ b0 = 0x07) ∧
    (b0 = 0x00 → (b0 :: tail).length = 1 + rest.length) ∧
    (b0 = 0x06 ∨ b0 = 0x07 → (b0 :: tail).length = 2 + rest.length) ∧
    (b0 = 0x01 ∨ b0 = 0x02 ∨ b0 = 0x05 → (b0 :: tail).length = 3 + rest.length) ∧
    (b0 = 0x03 ∨ b0 = 0x04 → (b0 :: tail).length = 4 + rest.length)

/-! ## The step -/

/-- 40_execution_loop.md R108: when the bytes at pc, all inside RAM, decode to an instruction, a Running CORE's step
is that instruction's execution; the step adds nothing around it. -/
def Obligations.StepRunsTheDecodedInstruction : Prop :=
  ∀ (s : State) (bytes : List Byte) (i : Instr), RunsAt s bytes → decode bytes = .ok (i, []) → step s = exec i s

/-- The model's own loading move (log 4): a word placed by withFetchWord is what the next step runs, and placing
it changes nothing but the four bytes at pc. -/
def Obligations.PlacedWordIsTheNextInstruction : Prop :=
  ∀ (s : State) (nbits w : Nat) (i : Instr), s.memOk = true → s.run = .running → s.pc.toNat + 4 ≤ s.ramSize →
    decodeTableWord nbits w = some i →
    step (s.withFetchWord nbits w) = exec i (s.withFetchWord nbits w) ∧
    (s.withFetchWord nbits w).memOk = true ∧
    s.withFetchWord nbits w = { s with mem := (s.withFetchWord nbits w).mem } ∧
    ∀ a, a < s.pc.toNat ∨ s.pc.toNat + 4 ≤ a → (s.withFetchWord nbits w).memRead a = s.memRead a

/-- R71, R102, R173: an opcode byte 0x08 .. 0xFF ends the step in Faulted with the kind UnknownInstruction and that
byte, whatever follows it in RAM; pc, registers, RAM and debug output are unchanged; and an image that begins
with 0xFF faults so at once with every register 0. That pc stays is D7 (log 11), that the record holds the byte D8
(log 12). -/
def Obligations.UnknownOpcodeFaults : Prop :=
  (∀ s : State, s.run = .running → s.pc.toNat < s.ramSize → 8 ≤ (s.memRead s.pc.toNat).toNat →
    ∃ t, step s = .next t ∧ t.run = .faulted ∧
      t.fault.map FaultRecord.cause = some (.unknownInstruction (s.memRead s.pc.toNat)) ∧
      t.pc = s.pc ∧ t.regs = s.regs ∧ t.ramSize = s.ramSize ∧ t.mem = s.mem ∧ t.debugOut = s.debugOut) ∧
  (∀ (c : Config) (rest : List Byte), c.wf = true →
    ∃ t, step (State.ofImage c (0xFF :: rest)) = .next t ∧ t.run = .faulted ∧
      t.fault.map FaultRecord.cause = some (.unknownInstruction 0xFF) ∧ ∀ i : Byte, t.reg i = 0)

/-- D4 (log 8): an operand byte at or above RAM_SIZE faults before the instruction runs, with nothing else
changed; EXIT, which has no operand byte, never does. -/
def Obligations.OperandOutsideRamFaults : Prop :=
  (∀ s : State, s.run = .running → s.pc.toNat < s.ramSize → (s.memRead s.pc.toNat).toNat < 8 →
    s.ramSize ≤ s.pc.toNat + operandCount (s.memRead s.pc.toNat).toNat →
    FaultsWith (step s) s (.outOfBounds .operandFetch s.ramSize)) ∧
  (∀ s : State, s.run = .running → s.pc.toNat < s.ramSize → s.memRead s.pc.toNat = 0x00 →
    step s = exec .exit s)

/-- D5, D6, D7 (log 9, 10, 11): an instruction that holds an index at or above NREG faults on the first one, and
nothing but run state and record changes. Every instruction with an index operand is named, with its checks in
order. -/
def Obligations.InvalidIndexFaultsBeforeAnyWrite : Prop :=
  ∀ (s : State) (a b imm : Byte),
    (s.nreg ≤ a.toNat →
      FaultsWith (exec (.store a imm) s) s (.invalidRegister a) ∧
      FaultsWith (exec (.load a imm) s) s (.invalidRegister a) ∧
      FaultsWith (exec (.ifImm a imm) s) s (.invalidRegister a) ∧
      FaultsWith (exec (.dpr a) s) s (.invalidRegister a) ∧
      FaultsWith (exec (.add a b imm) s) s (.invalidRegister a) ∧
      FaultsWith (exec (.sub a b imm) s) s (.invalidRegister a)) ∧
    (a.toNat < s.nreg → s.nreg ≤ b.toNat →
      FaultsWith (exec (.add a b imm) s) s (.invalidRegister b) ∧
      FaultsWith (exec (.sub a b imm) s) s (.invalidRegister b))

/-! ## Each instruction -/

/-- 41_halt.md R120: EXIT halts and changes nothing else; pc stays (D7, log 11), whatever RAM_SIZE is. -/
def Obligations.ExitHalts : Prop :=
  ∀ s : State, exec .exit s = .next { s with run := .halted } ∧
    (RunsAt s [0x00] → step s = .next { s with run := .halted })

/-- 42_register_write.md R130: with a valid index STORE completes, the register holds the immediate, the CORE goes
on at pc + 3, and nothing else changes.
The fields of the PcAdvance record are D8 (log 12). -/
def Obligations.StoreWritesTheImmediate : Prop :=
  ∀ (s : State) (r imm : Byte), r.toNat < s.nreg →
    ∃ t, exec (.store r imm) s = .next t ∧ t.reg r = imm ∧ SameRegsExcept s t r ∧ SameRam s t ∧
      t.debugOut = s.debugOut ∧ GoesOnAt s t (s.pc.toNat + 3)

/-- R131: with a valid index LOAD completes with the immediate in the register, and for every RAM and every index
it does exactly what STORE does; it reads no RAM.
The fields of the PcAdvance record are D8 (log 12). -/
def Obligations.LoadWritesTheImmediate : Prop :=
  (∀ (s : State) (r imm : Byte), r.toNat < s.nreg →
    ∃ t, exec (.load r imm) s = .next t ∧ t.reg r = imm ∧ SameRegsExcept s t r ∧ SameRam s t ∧
      t.debugOut = s.debugOut ∧ GoesOnAt s t (s.pc.toNat + 3)) ∧
  (∀ (s : State) (r imm : Byte), exec (.load r imm) s = exec (.store r imm) s)

/-- 43_arithmetic.md R140: with valid indices ADD completes, x[d] is the sum of three mod 256, the CORE goes on at
pc + 4, and nothing else changes.
The fields of the PcAdvance record are D8 (log 12). -/
def Obligations.AddWritesTheSum : Prop :=
  ∀ (s : State) (d src imm : Byte), d.toNat < s.nreg → src.toNat < s.nreg →
    ∃ t, exec (.add d src imm) s = .next t ∧
      (t.reg d).toNat = ((s.reg d).toNat + (s.reg src).toNat + imm.toNat) % 256 ∧
      SameRegsExcept s t d ∧ SameRam s t ∧ t.debugOut = s.debugOut ∧ GoesOnAt s t (s.pc.toNat + 4)

/-- R141: with valid indices SUB completes, x[d] is the least non-negative residue of the difference mod 256, the
CORE goes on at pc + 4, and nothing else changes.
The fields of the PcAdvance record are D8 (log 12). -/
def Obligations.SubWritesTheDifference : Prop :=
  ∀ (s : State) (d src imm : Byte), d.toNat < s.nreg → src.toNat < s.nreg →
    ∃ t, exec (.sub d src imm) s = .next t ∧
      ((t.reg d).toNat : Int) = (((s.reg d).toNat : Int) - (s.reg src).toNat - imm.toNat) % 256 ∧
      SameRegsExcept s t d ∧ SameRam s t ∧ t.debugOut = s.debugOut ∧ GoesOnAt s t (s.pc.toNat + 4)

/-- R140, R141, R142, corner cases: with d = s the old value is read twice, so ADD gives (2 x[d] + imm) mod 256 and
SUB gives 0 for imm = 0 and 256 - imm otherwise. -/
def Obligations.EqualOperandsReadTheOldValueTwice : Prop :=
  ∀ (s : State) (d imm : Byte), d.toNat < s.nreg →
    (∃ t, exec (.add d d imm) s = .next t ∧ (t.reg d).toNat = (2 * (s.reg d).toNat + imm.toNat) % 256) ∧
    (∃ t, exec (.sub d d imm) s = .next t ∧
      (t.reg d).toNat = if imm = 0 then 0 else 256 - imm.toNat)

/-- R143: the ALU's results are the low 8 bits of the exact sum and difference, and reducing once equals reducing
after each term. -/
def Obligations.AluReducesOnce : Prop :=
  ∀ a b c : Byte,
    (addResult a b c).toNat = (a.toNat + b.toNat + c.toNat) % 256 ∧
    (addResult a b c).toNat = ((a.toNat + b.toNat) % 256 + c.toNat) % 256 ∧
    ((subResult a b c).toNat : Int) = ((a.toNat : Int) - b.toNat - c.toNat) % 256 ∧
    ((subResult a b c).toNat : Int) = (((a.toNat : Int) - b.toNat) % 256 - c.toNat) % 256

/-- R144 (marked by the spec as general knowledge): read as two's-complement numbers, the results are the wrapped
signed sum and difference. -/
def Obligations.SignedReadingWraps : Prop :=
  ∀ a b c : Byte,
    (addResult a b c).toInt = (a.toInt + b.toInt + c.toInt).bmod 256 ∧
    (subResult a b c).toInt = (a.toInt - b.toInt - c.toInt).bmod 256

/-- 44_control.md R150: with a valid index IF completes, changes no register, no RAM and no debug output, and goes
on at pc + 3.
The fields of the PcAdvance record are D8 (log 12). -/
def Obligations.IfFallsThrough : Prop :=
  ∀ (s : State) (r imm : Byte), r.toNat < s.nreg →
    ∃ t, exec (.ifImm r imm) s = .next t ∧ t.regs = s.regs ∧ SameRam s t ∧ t.debugOut = s.debugOut ∧
      GoesOnAt s t (s.pc.toNat + 3)

/-- R150, D19: neither the immediate nor the value of any register changes what IF does. -/
def Obligations.IfIgnoresTheComparison : Prop :=
  ∀ (s : State) (r imm imm' j v : Byte),
    exec (.ifImm r imm') s = exec (.ifImm r imm) s ∧
    exec (.ifImm r imm) (s.writeReg j v) = mapNext (fun t => t.writeReg j v) (exec (.ifImm r imm) s)

/-- R151: JMP completes, changes no register, no RAM and no debug output, and goes on at the absolute address its
target byte holds.
The fields of the PcAdvance record are D8 (log 12). -/
def Obligations.JmpGoesToItsTargetByte : Prop :=
  ∀ (s : State) (target : Byte),
    ∃ t, exec (.jmp target) s = .next t ∧ t.regs = s.regs ∧ SameRam s t ∧ t.debugOut = s.debugOut ∧
      GoesOnAt s t target.toNat ∧ t.pc.toNat = target.toNat

/-- R151, R111: a JMP whose target is its own address leaves the state as it is, so the run never ends. -/
def Obligations.SelfJumpNeverEnds : Prop :=
  ∀ (s : State) (target : Byte), RunsAt s [0x06, target] → target.toNat = s.pc.toNat →
    step s = .next s ∧ NeverEnds s

/-- 45_debug.md R160: with a valid index DPR completes, appends one event with the index and the register's value,
changes no register and no RAM, and goes on at pc + 2. That the event carries the index is D11.
The fields of the PcAdvance record are D8 (log 12). -/
def Obligations.DprAppendsOneEvent : Prop :=
  ∀ (s : State) (r : Byte), r.toNat < s.nreg →
    ∃ t, exec (.dpr r) s = .next t ∧ t.debugOut = s.debugOut ++ [⟨r, s.reg r⟩] ∧ t.regs = s.regs ∧ SameRam s t ∧
      GoesOnAt s t (s.pc.toNat + 2)

/-! ## All instructions -/

/-- 10_state.md R22's table, as far as it can be observed. No other: an instruction changes no register but the one
its row writes, whatever way it ends; and it reads no register but those its row reads, since changing another
register before the instruction changes that register after it and nothing else, or nothing at all where the
instruction overwrites it. And these: with valid indices STORE and LOAD write x[r]; the value that ADD and SUB write
to x[d] changes with x[s] and with x[d], for d and s apart; and the event of DPR changes with x[r]. IF's read of
x[r] is discarded (R150), so nothing shows it. -/
def Obligations.RegistersReadAndWrittenAreTheTables : Prop :=
  (∀ (i : Instr) (s t : State) (j : Byte), exec i s = .next t → j ∉ i.writes → t.reg j = s.reg j) ∧
  (∀ (i : Instr) (s : State) (j v : Byte), j ∉ i.reads → j ∉ i.writes →
    exec i (s.writeReg j v) = mapNext (fun t => t.writeReg j v) (exec i s)) ∧
  (∀ (i : Instr) (s : State) (j v : Byte), j.toNat < s.nreg → i.wf s.nreg = true → j ∉ i.reads → j ∈ i.writes →
    exec i (s.writeReg j v) = exec i s) ∧
  (∀ (s : State) (r imm : Byte), r.toNat < s.nreg →
    (∃ t, exec (.store r imm) s = .next t ∧ t.reg r = imm) ∧ (∃ t, exec (.load r imm) s = .next t ∧ t.reg r = imm)) ∧
  (∀ (s : State) (d src imm j v : Byte) (i : Instr), i = .add d src imm ∨ i = .sub d src imm →
    d.toNat < s.nreg → src.toNat < s.nreg → d ≠ src → j = d ∨ j = src → v ≠ s.reg j →
    ∃ t t', exec i s = .next t ∧ exec i (s.writeReg j v) = .next t' ∧ t'.reg d ≠ t.reg d) ∧
  (∀ (s : State) (r v : Byte), r.toNat < s.nreg → v ≠ s.reg r →
    ∃ t t', exec (.dpr r) s = .next t ∧ exec (.dpr r) (s.writeReg r v) = .next t' ∧ t'.debugOut ≠ t.debugOut)

/-- R23, R43, R52, R54: no number of steps changes RAM, RAM_SIZE or NREG. -/
def Obligations.RunsNeverChangeRamOrSizes : Prop :=
  ∀ s t : State, Reaches s t → t.mem = s.mem ∧ t.ramSize = s.ramSize ∧ t.nreg = s.nreg

/-- 20_memory.md R41, R42, R71: an instruction reads no RAM as data, and a step reads only the opcode byte and the
operand bytes of its instruction, the opcode byte alone where it is illegal. -/
def Obligations.OnlyFetchReadsRam : Prop :=
  (∀ (i : Instr) (s : State) (m : Memory),
    exec i { s with mem := m } = mapNext (fun t => { t with mem := m }) (exec i s)) ∧
  (∀ (s : State) (m : Memory), s.run = .running → s.pc.toNat < s.ramSize →
    (∀ k, k ≤ operandCount (s.memRead s.pc.toNat).toNat → s.pc.toNat + k < s.ramSize →
      Memory.read m (s.pc.toNat + k) = s.memRead (s.pc.toNat + k)) →
    step { s with mem := m } = mapNext (fun t => { t with mem := m }) (step s))

/-- R35, R160: a step leaves the debug output as it is, or it is a DPR with a valid index and appends its event. -/
def Obligations.DebugOutputGrowsByDprOnly : Prop :=
  ∀ s t : State, step s = .next t →
    t.debugOut = s.debugOut ∨
    ∃ r : Byte, RunsAt s [0x07, r] ∧ r.toNat < s.nreg ∧ t.debugOut = s.debugOut ++ [⟨r, s.reg r⟩]

/-- R37, R160: no step reads the debug output back: with another debug output before it, the step does the same
and appends the same events. -/
def Obligations.DebugOutputIsNeverReadBack : Prop :=
  ∀ (s : State) (d : List DebugEvent), step { s with debugOut := d } =
    mapNext (fun t => { t with debugOut := d ++ t.debugOut.drop s.debugOut.length }) (step s)

/-! ## Faults and ends -/

/-- 60_exceptions.md R175 (D4, D5, D6, D8; log 8, 9, 10, 12): from a Running state with no fault recorded, a step raises
exactly the first fault that R175's list gives for the bytes at pc, with the address of the opcode byte; with no
such fault it halts on opcode byte 0x00 and goes on Running on every other. -/
def Obligations.StepRaisesTheFirstFault : Prop :=
  ∀ s : State, s.run = .running → s.pc.toNat < s.ramSize → s.fault = none →
    ∃ t, step s = .next t ∧ t.fault = (firstFault s).map (fun c => ⟨c, s.pc⟩) ∧
      t.run = if (firstFault s).isSome then .faulted
        else if s.memRead s.pc.toNat = 0x00 then .halted else .running

/-- R172, R177 (pc and record: D7, D8; log 11, 12): a step that faults, but for the bound check after the advance, changes run state and record alone;
and a fault of that check leaves pc at the address it names, which is not below RAM_SIZE (R107, R174). -/
def Obligations.FaultsArePrecise : Prop :=
  ∀ s t : State, step s = .next t → t.run = .faulted →
    ∃ c, t.fault = some ⟨c, s.pc⟩ ∧
      ((∀ a, c ≠ .outOfBounds .pcAdvance a) → t = { s with run := .faulted, fault := some ⟨c, s.pc⟩ }) ∧
      (∀ a, c = .outOfBounds .pcAdvance a → t.pc = BitVec.ofNat 32 a ∧ s.ramSize ≤ a)

/-- 10_state.md R26, 60_exceptions.md R176 (D7, log 11): pc after a step is the table's next address where the step
advances and its old value where it halts or faults before the advance; it never wraps (R29). -/
def Obligations.PcFollowsTheTable : Prop :=
  ∀ s t : State, s.Inv → step s = .next t →
    ((∃ a, nextPcByTable s = some a ∧ t.pc.toNat = a ∧
        (firstFault s = none ∨ firstFault s = some (.outOfBounds .pcAdvance a))) ∨
     (t.pc = s.pc ∧ (t.run = .halted ∨ ∃ c, firstFault s = some c ∧ ∀ a, c ≠ .outOfBounds .pcAdvance a)))

/-- 40_execution_loop.md R111: a step ends the run in Halted exactly when the opcode byte is EXIT's. -/
def Obligations.OnlyExitHalts : Prop :=
  ∀ s t : State, step s = .next t → (t.run = .halted ↔ s.memRead s.pc.toNat = 0x00)

/-- R100, R113: a step is enabled only in Running; in Halted and Faulted no step is enabled, which the model answers
with the stop noStepEnabled (log 5), a step command changes nothing (D10, log 20), and only reset leaves them. -/
def Obligations.TerminalStatesAreLeftByResetOnly : Prop :=
  (∀ s t : State, step s = .next t → s.run = .running) ∧
  (∀ s : State, s.run ≠ .running → step s = .fault .noStepEnabled ∧ s.stepCommand = s) ∧
  (∀ (s : State) (c : Command), s.run ≠ .running → c.apply s ≠ s → ∃ image, c = .reset image)

/-! ## Reset -/

/-- 70_reset_and_hazards.md R200, R202, R113: in every state, whatever its run state, a reset command leaves the reset
state of its image for the machine's own NREG and RAM_SIZE. So what it leaves depends on the parameters and the image
alone, and it keeps the parameters, which is the model's reading of the command (log 20). -/
def Obligations.NothingSurvivesAReset : Prop :=
  (∀ (s : State) (image : List Byte),
    (Command.reset image).apply s = State.ofImage { nreg := s.nreg, ramSize := s.ramSize } image) ∧
  (∀ (s t : State) (image : List Byte), s.config = t.config →
    (Command.reset image).apply s = (Command.reset image).apply t ∧
    ((Command.reset image).apply s).config = s.config)

/-- R24, R27: after reset with any image every register is 0, there are NREG of them, and pc is 0. -/
def Obligations.RegistersAndPcAreZeroAfterReset : Prop :=
  ∀ (c : Config) (image : List Byte), (State.ofImage c image).nreg = c.nreg ∧
    (∀ i : Byte, (State.ofImage c image).reg i = 0) ∧ (State.ofImage c image).pc = 0

/-- R39, R200, R201: after reset RAM holds the image from offset 0, bytes past RAM_SIZE dropped, and 0x00 after it
(the fill is D3, log 3); the run state is Running, with no fault and no debug event. -/
def Obligations.ImageIsLoadedFromOffsetZero : Prop :=
  ∀ (c : Config) (image : List Byte),
    (State.ofImage c image).ramSize = c.ramSize ∧
    (∀ a, a < c.ramSize → (State.ofImage c image).memRead a = if h : a < image.length then image[a] else 0x00) ∧
    (∀ extra, c.ramSize ≤ image.length → State.ofImage c (image ++ extra) = State.ofImage c image) ∧
    (State.ofImage c image).run = .running ∧ (State.ofImage c image).fault = none ∧
    (State.ofImage c image).debugOut = []

/-- R204 (the fill is D3, log 3): with an empty image the first step halts at address 0 and nothing else changes. -/
def Obligations.EmptyImageHaltsAtOnce : Prop :=
  ∀ c : Config, c.wf = true →
    step (State.ofImage c []) = .next { State.ofImage c [] with run := .halted }

/-! ## Invariant and runs -/

/-- The invariant holds at State.reset, which is the reset with an empty image in the test configuration (log 1). -/
def Obligations.ResetHasTheInvariant : Prop :=
  State.reset.Inv ∧ State.reset = State.ofImage Config.test []

/-- The invariant holds after reset with any image in any configuration the spec allows. -/
def Obligations.ImageResetHasTheInvariant : Prop :=
  ∀ (c : Config) (image : List Byte), c.wf = true → (State.ofImage c image).Inv

/-- R9, R28, R34, R43, R160, R170, R176: every step keeps the invariant. -/
def Obligations.StepKeepsTheInvariant : Prop :=
  ∀ s t : State, s.Inv → step s = .next t → t.Inv

/-- R28, R100, R111: from reset with any image, every state a run reaches is Running with a next state, or Halted
or Faulted with none; no run meets the fetch outside RAM or a refusal. -/
def Obligations.ReachedStatesGoOnOrHaveEnded : Prop :=
  ∀ (c : Config) (image : List Byte) (t : State), c.wf = true → Reaches (State.ofImage c image) t →
    (t.run = .running ∧ ∃ u, step t = .next u) ∨ (t.run ≠ .running ∧ step t = .fault .noStepEnabled)

/-- R150, R152, R153: control flow depends on no data: two states with the same pc, RAM, parameters, run state and
record, and any registers and debug outputs, have the same pc, run state and record after any number of steps. -/
def Obligations.ControlFlowIgnoresData : Prop :=
  ∀ (k : Nat) (s s' t : State), s'.pc = s.pc → s'.mem = s.mem → s'.ramSize = s.ramSize → s'.nreg = s.nreg →
    s'.run = s.run → s'.fault = s.fault → StepsIn k s t →
    ∃ t', StepsIn k s' t' ∧ t'.pc = t.pc ∧ t'.run = t.run ∧ t'.fault = t.fault

/-- R150, R152: one step of two states that agree on everything but register values and debug output: if one has a next
state, so has the other, and they agree again. -/
def Obligations.StepKeepsEqualControl : Prop :=
  ∀ s s' t : State, SameControl s s' → step s = .next t → ∃ t', step s' = .next t' ∧ SameControl t t'

/-- R153: a terminating loop cannot be written: a run that comes back to an address while Running never ends. -/
def Obligations.RevisitedAddressNeverEnds : Prop :=
  ∀ (s t : State) (k : Nat), StepsIn (k + 1) s t → t.run = .running → t.pc = s.pc → NeverEnds s

/-- R111, R153: a run ends within RAM_SIZE steps or never. -/
def Obligations.RunsEndWithinRamSizeStepsOrNever : Prop :=
  ∀ s : State, s.Inv → s.run = .running →
    NeverEnds s ∨ ∃ (k : Nat) (t : State), k ≤ s.ramSize ∧ StepsIn k s t ∧ t.run ≠ .running

/-! ## The assembler -/

/-- 30_encoding.md R85, R86, R88: an image that the assembler produces is the bytes of the instruction lines in
source order, JMP's opcode alone among them, so no label address is in it. -/
def Obligations.ImageIsTheBytesOfTheLines : Prop :=
  ∀ (maxLabels : Nat) (isIdent : List Char → Bool) (src : List Char) (image : List Byte),
    assemble maxLabels isIdent src = .ok image →
    ∃ instrs : List AsmInstr,
      ((linesOf isIdent src).filterMap fun l => match l with
        | .label _ => none
        | .instr line tokens => some (parseTokens line tokens)) = instrs.map Except.ok ∧
      image = instrs.flatMap AsmInstr.bytes

/-- R91: a source text in which no line declares or names a label, in any spelling the assembler accepts, assembles to
exactly the hand encoding of its instructions, with no header, padding or trailing byte, so the reset states are the
same; and the canonical source text of any instructions that name no label is such a text. What the assembler
accepts as white space, commas and identifiers is D21 and log 16. -/
def Obligations.LabelFreeTextAssemblesToItsEncoding : Prop :=
  (∀ (maxLabels : Nat) (isIdent : List Char → Bool) (src : List Char) (instrs : List Instr),
    (linesOf isIdent src).map AsmLine.toInstr? = instrs.map some →
    assemble maxLabels isIdent src = .ok (instrs.flatMap encode)) ∧
  (∀ (maxLabels : Nat) (isIdent : List Char → Bool) (instrs : List Instr) (lines : List (List Char)),
    instrs.map sourceLine? = lines.map some →
    (linesOf isIdent (sourceText lines)).map AsmLine.toInstr? = instrs.map some ∧
    assemble maxLabels isIdent (sourceText lines) = .ok (instrs.flatMap encode))

/-- R85 (the numbering is log 16): an operand-count error names a line of the source, by its number from 1 on, that has a
known mnemonic and another number of operands than its syntax; and pass 2 ends with that error at such a line. -/
def Obligations.WrongOperandCountNamesItsLine : Prop :=
  (∀ (maxLabels : Nat) (isIdent : List Char → Bool) (src : List Char) (n : Nat),
    assemble maxLabels isIdent src = .error (.operandCount n) →
    ∃ (k : Nat) (line m : List Char) (ops : List (List Char)) (op : Opcode),
      n = k + 1 ∧ (rawLines src)[k]? = some line ∧ tokensOf line = m :: ops ∧ mnemonicOf? m = some op ∧
      ops.length ≠ asmOperandCount op) ∧
  (∀ (position : Nat) (labels : LabelTable) (n : Nat) (m : List Char) (ops : List (List Char)) (op : Opcode)
    (rest : List AsmLine), mnemonicOf? m = some op → ops.length ≠ asmOperandCount op →
    passTwo position labels (.instr n (m :: ops) :: rest) = .error (.operandCount n))

/-- R83, R84 (the bound on an index is D22, log 16): a register token is accepted exactly when it is R or r and one or
more decimal digits whose value is at most 255, and an immediate token exactly when it is such digits; leading zeros
change nothing. -/
def Obligations.OperandTokensAreReadInDecimal : Prop :=
  ∀ (t : List Char) (b : Byte),
    (parseImmediate t = .ok b ↔
      t ≠ [] ∧ (∀ c ∈ t, c.isDigit = true) ∧ Nat.ofDigits 10 (t.reverse.map fun c => c.toNat - 48) = b.toNat) ∧
    (parseRegister t = .ok b ↔
      ∃ c ds, t = c :: ds ∧ (c = 'R' ∨ c = 'r') ∧ ds ≠ [] ∧ (∀ c ∈ ds, c.isDigit = true) ∧
        Nat.ofDigits 10 (ds.reverse.map fun c => c.toNat - 48) = b.toNat)
end

