-- ==== Sys2Proof/Laws/Assembler.lean ====
section
/-! SUPPORT. Decimal numbers, tokens and lines of the assembler's source text. -/

namespace Sys2Proof.Machine

/-! ## Decimal numbers -/

/-- A byte's decimal text is digits, and reads back as the byte; 256 cases, evaluated. -/
theorem decimalOf_fin : ∀ n : Fin 256,
    decimalOf (BitVec.ofFin n) ≠ [] ∧ (decimalOf (BitVec.ofFin n)).all Char.isDigit = true ∧
    (parseDecimal (decimalOf (BitVec.ofFin n))).bind asByte = some (BitVec.ofFin n) := by decide +kernel

theorem decimalOf_ne_nil (b : Byte) : decimalOf b ≠ [] := (decimalOf_fin b.toFin).1

theorem isDigit_of_mem_decimalOf {b : Byte} {c : Char} (h : c ∈ decimalOf b) : c.isDigit = true :=
  List.all_eq_true.mp (decimalOf_fin b.toFin).2.1 c h

/-- An immediate's decimal text parses to it (R84). -/
@[simp] theorem parseImmediate_decimalOf (b : Byte) : parseImmediate (decimalOf b) = .ok b := by
  have h : (parseDecimal (decimalOf b)).bind asByte = some b := (decimalOf_fin b.toFin).2.2
  simp [parseImmediate, h]

/-- A register's text parses to its index (R83). -/
@[simp] theorem parseRegister_decimalOf (b : Byte) : parseRegister ('R' :: decimalOf b) = .ok b := by
  have h : (parseDecimal (decimalOf b)).bind asByte = some b := (decimalOf_fin b.toFin).2.2
  simp [parseRegister, h]

/-- A digit is neither white space nor a comma. -/
theorem not_special_of_isDigit {c : Char} (h : c.isDigit = true) : c.isWhitespace = false ∧ c ≠ ',' ∧ c ≠ '\n' := by
  refine ⟨?_, ?_, ?_⟩
  · by_contra hw
    simp only [Bool.not_eq_false, Char.isWhitespace, Bool.or_eq_true, decide_eq_true_eq] at hw
    rcases hw with ((rfl | rfl) | rfl) | rfl <;> simp [Char.isDigit] at h
  · rintro rfl; simp [Char.isDigit] at h
  · rintro rfl; simp [Char.isDigit] at h

/-! ## Tokens -/

/-- A word with no white space in it. -/
def IsWord (w : List Char) : Prop := w ≠ [] ∧ ∀ c ∈ w, c.isWhitespace = false

theorem isWord_decimalOf (b : Byte) : IsWord (decimalOf b) :=
  ⟨decimalOf_ne_nil b, fun _ hc => (not_special_of_isDigit (isDigit_of_mem_decimalOf hc)).1⟩

theorem IsWord.cons {w : List Char} (c : Char) (hc : c.isWhitespace = false) (h : IsWord w) : IsWord (c :: w) :=
  ⟨by simp, fun d hd => by rcases List.mem_cons.mp hd with rfl | hd; exacts [hc, h.2 d hd]⟩

theorem IsWord.comma {w : List Char} (h : IsWord w) : IsWord (w ++ [',']) :=
  ⟨by simp, fun d hd => by
    rcases List.mem_append.mp hd with hd | hd
    · exact h.2 d hd
    · rw [List.mem_singleton.mp hd]; rfl⟩

/-- A line that is one word has that one token. -/
theorem tokensOf_word {w : List Char} (h : IsWord w) : tokensOf w = [w] := by
  rw [tokensOf, List.splitOnP_eq_singleton h.2]
  simp [h.1]

/-- A word, a space and the rest of a line: the word is the first token. -/
theorem tokensOf_word_space {w : List Char} (rest : List Char) (h : IsWord w) :
    tokensOf (w ++ ' ' :: rest) = w :: tokensOf rest := by
  rw [tokensOf, List.splitOnP_append_cons_of_forall_mem h.2 ' ' rfl]
  simp [h.1, tokensOf]

/-- Stripping the comma of an operand token (R82). -/
@[simp] theorem stripComma_comma (w : List Char) : stripComma (w ++ [',']) = w := by simp [stripComma]

/-- An operand token of digits has no comma to strip. -/
@[simp] theorem stripComma_decimalOf (b : Byte) : stripComma (decimalOf b) = decimalOf b := by
  rw [stripComma, if_neg]
  intro h
  exact (not_special_of_isDigit (isDigit_of_mem_decimalOf (List.mem_of_getLast? h))).2.1 rfl

/-- Neither has a register token. -/
@[simp] theorem stripComma_register (b : Byte) : stripComma ('R' :: decimalOf b) = 'R' :: decimalOf b := by
  rw [stripComma, if_neg]
  intro h
  rcases List.mem_cons.mp (List.mem_of_getLast? h) with hc | hc
  · exact absurd hc (by decide)
  · exact (not_special_of_isDigit (isDigit_of_mem_decimalOf hc)).2.1 rfl

/-- A line of two or more tokens is an instruction line (R80). -/
theorem classifyLine_of_tokens (isIdent : List Char → Bool) (number : Nat) {line a b : List Char}
    {ts : List (List Char)} (h : tokensOf line = a :: b :: ts) :
    classifyLine isIdent number line = some (.instr number (a :: b :: ts)) := by
  simp [classifyLine, h]

/-- An instruction line carries its own number and its own tokens. -/
theorem classifyLine_eq_instr {isIdent : List Char → Bool} {number n : Nat} {line : List Char}
    {tokens : List (List Char)} (h : classifyLine isIdent number line = some (.instr n tokens)) :
    n = number ∧ tokensOf line = tokens := by
  unfold classifyLine at h
  split at h
  · simp at h
  · split at h <;> simp_all
  · simp_all

/-! ## Parsing -/

/-- A line that parses and names no label emits the instruction's encoding (R85, R91). -/
theorem toInstr?_spec {a : AsmInstr} {i : Instr} (h : a.toInstr? = some i) : a.bytes = encode i ∧ a.label? = none := by
  cases a <;> simp [AsmInstr.toInstr?] at h <;> subst h <;> exact ⟨rfl, rfl⟩

/-! ## Lines -/

/-- Every instruction line stands in the source under its number. -/
theorem mem_classifyFrom {isIdent : List Char → Bool} {start n : Nat} {ls : List (List Char)}
    {tokens : List (List Char)} (h : AsmLine.instr n tokens ∈ classifyFrom isIdent start ls) :
    ∃ k line, n = start + k ∧ ls[k]? = some line ∧ tokensOf line = tokens := by
  induction ls generalizing start with
  | nil => simp [classifyFrom] at h
  | cons l ls ih =>
    have later : AsmLine.instr n tokens ∈ classifyFrom isIdent (start + 1) ls →
        ∃ k line, n = start + k ∧ (l :: ls)[k]? = some line ∧ tokensOf line = tokens := fun h => by
      obtain ⟨k, line, hn, hl, ht⟩ := ih h
      exact ⟨k + 1, line, by omega, by simpa using hl, ht⟩
    simp only [classifyFrom] at h
    split at h
    · exact later h
    · next a ha =>
      rcases List.mem_cons.mp h with rfl | h
      · obtain ⟨hn, ht⟩ := classifyLine_eq_instr ha
        exact ⟨0, l, by omega, rfl, ht⟩
      · exact later h

/-- Lines with a newline after each split into themselves and an empty line. -/
theorem rawLines_sourceText {lines : List (List Char)} (h : ∀ l ∈ lines, '\n' ∉ l) :
    rawLines (sourceText lines) = lines ++ [[]] := by
  unfold rawLines
  induction lines with
  | nil => rfl
  | cons l ls ih =>
    have hl : ∀ c ∈ l, (c == '\n') = false := fun c hc =>
      beq_false_of_ne fun e => h l (by simp) (by rw [← e]; exact hc)
    have e : sourceText (l :: ls) = l ++ '\n' :: sourceText ls := by simp [sourceText]
    rw [e, List.splitOnP_append_cons_of_forall_mem hl '\n' rfl, ih fun x hx => h x (by simp [hx])]
    rfl

end Sys2Proof.Machine
end

