-- ==== Sys2Proof/Laws/Decode.lean ====
section
/-! SUPPORT. The opcode map in both directions, and the lengths of encodings. -/

namespace Sys2Proof

@[simp] theorem Opcode.ofByte?_toByte (op : Opcode) : Opcode.ofByte? op.toByte = some op := by
  cases op <;> rfl

/-- A byte that decodes to an opcode is that opcode's byte. -/
theorem Opcode.toByte_of_ofByte? {b : Byte} {op : Opcode} (h : Opcode.ofByte? b = some op) : b = op.toByte := by
  apply BitVec.eq_of_toNat_eq
  unfold Opcode.ofByte? at h
  split at h
  all_goals first | contradiction | (cases h; assumption)

/-- The illegal opcode bytes are 0x08 and above (R71). -/
theorem Opcode.ofByte?_eq_none {b : Byte} : Opcode.ofByte? b = none ↔ 8 ≤ b.toNat := by
  unfold Opcode.ofByte?
  split
  all_goals simp_all
  omega

/-- A legal opcode byte is some opcode's byte. -/
theorem Opcode.exists_toByte {b : Byte} (h : b.toNat < 8) : ∃ op : Opcode, b = op.toByte := by
  cases hb : Opcode.ofByte? b with
  | none => have := Opcode.ofByte?_eq_none.mp hb; omega
  | some op => exact ⟨op, Opcode.toByte_of_ofByte? hb⟩

theorem Opcode.toByte_inj {a b : Opcode} (h : a.toByte = b.toByte) : a = b := by
  simpa using congrArg Opcode.ofByte? h

theorem Opcode.toByte_lt (op : Opcode) : op.toByte.toNat < 8 := by cases op <;> decide

@[simp] theorem length_operandBytes (i : Instr) : i.operandBytes.length = i.opcode.noper := by cases i <;> rfl

@[simp] theorem length_encode (i : Instr) : (encode i).length = i.opcode.noper + 1 := by simp [encode]

@[simp] theorem opcode_instr (op : Opcode) (b : Nat → Byte) : (op.instr b).opcode = op := by cases op <;> rfl

/-- The operand bytes of the instruction that an opcode and bytes make are those bytes. -/
theorem operandBytes_instr (op : Opcode) (b : Nat → Byte) :
    (op.instr b).operandBytes = (List.range op.noper).map fun k => b (k + 1) := by
  cases op <;> rfl

/-- An instruction is made again from its own opcode and operand bytes. -/
theorem instr_operandBytes (i : Instr) (rest : List Byte) :
    i.opcode.instr (fun k => (i.opcode.toByte :: (i.operandBytes ++ rest)).getD k 0) = i := by
  cases i <;> rfl

/-- The instruction an opcode makes depends on its own operand bytes alone. -/
theorem instr_congr (op : Opcode) {b c : Nat → Byte} (h : ∀ k, 1 ≤ k → k ≤ op.noper → b k = c k) :
    op.instr b = op.instr c := by
  cases op <;> simp [Opcode.instr, Opcode.noper] at h ⊢ <;> simp_all

/-- When decoding answers an instruction. -/
theorem decode_eq_ok {bs : List Byte} {i : Instr} {rest : List Byte} (h : decode bs = .ok (i, rest)) :
    ∃ (op : Opcode) (tail : List Byte), bs = op.toByte :: tail ∧ op.noper ≤ tail.length ∧ rest = tail.drop op.noper ∧
      i = op.instr fun k => bs.getD k 0 := by
  cases bs with
  | nil => simp [decode] at h
  | cons b0 tail =>
    simp only [decode] at h
    split at h
    · simp at h
    · next op hop =>
      split at h
      · simp at h
      · next hlen =>
        simp only [Except.ok.injEq, Prod.mk.injEq] at h
        exact ⟨op, tail, by rw [Opcode.toByte_of_ofByte? hop], by omega, h.2.symm, h.1.symm⟩

end Sys2Proof
end

