-- ==== Sys2Proof/Laws/Memory.lean ====
section
/-! SUPPORT. The laws of RAM: a read after a write, the canonical form, and the byte-wise operations over them. -/

namespace Sys2Proof.Machine

@[simp] theorem Memory.read_nil (a : Nat) : Memory.read [] a = Memory.unlisted := rfl

/-- In a list whose addresses all lie above `a`, `a` is unlisted. -/
theorem Memory.read_below (m : Memory) (a : Nat) (h : ∀ c ∈ m, a < c.1) : Memory.read m a = Memory.unlisted := by
  induction m with
  | nil => rfl
  | cons c m ih =>
    obtain ⟨b, w⟩ := c
    have hb : a < b := h (b, w) (by simp)
    simp only [Memory.read, if_neg (Nat.ne_of_lt hb)]
    exact ih fun c hc => h c (by simp [hc])

/-- What the canonical form says of a non-empty list. -/
theorem Memory.wf_cons {a : Nat} {v : Byte} {m : Memory} :
    Memory.wf ((a, v) :: m) = true ↔ v ≠ Memory.unlisted ∧ (∀ c ∈ m, a < c.1) ∧ Memory.wf m = true := by
  simp [Memory.wf, and_assoc]

/-- A write adds no address but the one it writes. -/
theorem Memory.mem_write {m : Memory} {a : Nat} {v : Byte} {c : Host.Cell} (h : c ∈ Memory.write m a v) :
    c.1 = a ∨ c ∈ m := by
  induction m with
  | nil => simp only [Memory.write] at h; split at h <;> simp_all
  | cons d m ih =>
    obtain ⟨b, w⟩ := d
    simp only [Memory.write] at h
    split at h
    · split at h
      · exact .inr h
      · exact (List.mem_cons.mp h).imp_left fun e => by rw [e]
    · split at h
      · split at h
        · exact .inr (List.mem_cons_of_mem _ h)
        · rcases List.mem_cons.mp h with rfl | h
          · exact .inl rfl
          · exact .inr (List.mem_cons_of_mem _ h)
      · rcases List.mem_cons.mp h with rfl | h
        · exact .inr List.mem_cons_self
        · exact (ih h).imp_right (List.mem_cons_of_mem _)

/-- A write keeps the canonical form. -/
theorem Memory.wf_write {m : Memory} (a : Nat) (v : Byte) (h : Memory.wf m = true) :
    Memory.wf (Memory.write m a v) = true := by
  induction m with
  | nil => simp only [Memory.write]; split <;> simp_all [Memory.wf]
  | cons d m ih =>
    obtain ⟨b, w⟩ := d
    obtain ⟨hw, hb, hm⟩ := Memory.wf_cons.mp h
    simp only [Memory.write]
    split
    · split
      · exact h
      · next hab hv =>
        refine Memory.wf_cons.mpr ⟨hv, fun c hc => ?_, h⟩
        rcases List.mem_cons.mp hc with rfl | hc
        · exact hab
        · exact hab.trans (hb c hc)
    · split
      · next hab =>
        subst hab
        split
        · exact hm
        · next hv => exact Memory.wf_cons.mpr ⟨hv, hb, hm⟩
      · next hlt hne =>
        refine Memory.wf_cons.mpr ⟨hw, fun c hc => ?_, ih hm⟩
        rcases Memory.mem_write hc with hc | hc
        · omega
        · exact hb c hc

/-- The address written reads back the value (canonical memories). -/
theorem Memory.read_write_same {m : Memory} (a : Nat) (v : Byte) (h : Memory.wf m = true) :
    Memory.read (Memory.write m a v) a = v := by
  induction m with
  | nil => simp only [Memory.write]; split <;> simp_all [Memory.read]
  | cons d m ih =>
    obtain ⟨b, w⟩ := d
    obtain ⟨hw, hb, hm⟩ := Memory.wf_cons.mp h
    simp only [Memory.write]
    split
    · next hab =>
      split
      · next hv =>
        rw [Memory.read, if_neg (Nat.ne_of_lt hab), Memory.read_below m a fun c hc => hab.trans (hb c hc), hv]
      · simp [Memory.read]
    · split
      · next hab =>
        subst hab
        split
        · next hv => rw [Memory.read_below m a hb, hv]
        · simp [Memory.read]
      · next hne => rw [Memory.read, if_neg hne]; exact ih hm

/-- Every other address reads as before. -/
theorem Memory.read_write_other {m : Memory} {a b : Nat} (v : Byte) (h : b ≠ a) :
    Memory.read (Memory.write m a v) b = Memory.read m b := by
  induction m with
  | nil => simp only [Memory.write]; split <;> simp [Memory.read, h]
  | cons d m ih =>
    obtain ⟨e, w⟩ := d
    simp only [Memory.write]
    split
    · split
      · rfl
      · rw [Memory.read, if_neg h]
    · split
      · next hae =>
        subst hae
        split
        · rw [Memory.read, if_neg h]
        · rw [Memory.read, if_neg h, Memory.read, if_neg h]
      · simp only [Memory.read, ih]

/-! ## The same on State -/

@[simp] theorem memWrite_ramSize (s : State) (a : Nat) (v : Byte) : (s.memWrite a v).ramSize = s.ramSize := by
  unfold State.memWrite; split <;> rfl

theorem memRead_memWrite_same (s : State) {a : Nat} (v : Byte) (hwf : Memory.wf s.mem = true) (h : a < s.ramSize) :
    (s.memWrite a v).memRead a = v := by
  simp only [State.memWrite, if_pos h, State.memRead, Memory.read_write_same a v hwf]

theorem memRead_memWrite_other (s : State) {a b : Nat} (v : Byte) (h : b ≠ a) :
    (s.memWrite a v).memRead b = s.memRead b := by
  unfold State.memWrite
  split
  · exact Memory.read_write_other v h
  · rfl

theorem wf_memWrite (s : State) (a : Nat) (v : Byte) (h : Memory.wf s.mem = true) :
    Memory.wf (s.memWrite a v).mem = true := by
  unfold State.memWrite
  split
  · exact Memory.wf_write a v h
  · exact h

/-- A byte-wise write keeps the canonical form. -/
theorem wf_memWriteBytes (s : State) (a : Nat) (bs : List Byte) (h : Memory.wf s.mem = true) :
    Memory.wf (s.memWriteBytes a bs).mem = true := by
  induction bs generalizing s a with
  | nil => exact h
  | cons b bs ih => exact ih _ _ (wf_memWrite s a b h)

/-- A byte-wise write lists no address outside RAM. -/
theorem mem_memWriteBytes_lt (s : State) (a : Nat) (bs : List Byte) (h : ∀ c ∈ s.mem, c.1 < s.ramSize) :
    ∀ c ∈ (s.memWriteBytes a bs).mem, c.1 < s.ramSize := by
  induction bs generalizing s a with
  | nil => exact h
  | cons b bs ih =>
    have key : ∀ c ∈ (s.memWrite a b).mem, c.1 < (s.memWrite a b).ramSize := by
      intro c hc
      rw [memWrite_ramSize]
      unfold State.memWrite at hc
      split at hc
      · next ha =>
        rcases Memory.mem_write hc with hc | hc
        · omega
        · exact h c hc
      · exact h c hc
    rw [← memWrite_ramSize s a b]
    exact ih _ (a + 1) key

/-- A byte-wise write changes RAM and nothing else. -/
theorem memWriteBytes_eq (s : State) (a : Nat) (bs : List Byte) :
    s.memWriteBytes a bs = { s with mem := (s.memWriteBytes a bs).mem } := by
  induction bs generalizing s a with
  | nil => rfl
  | cons b bs ih =>
    rw [State.memWriteBytes, ih]
    unfold State.memWrite
    split <;> rfl

/-- What RAM holds after a byte-wise write inside RAM: the bytes where they were written, the old byte
everywhere else. -/
theorem memRead_memWriteBytes (s : State) (a : Nat) (bs : List Byte) (hwf : Memory.wf s.mem = true) (x : Nat)
    (hx : x < s.ramSize) :
    (s.memWriteBytes a bs).memRead x =
      if a ≤ x ∧ x < a + bs.length then bs.getD (x - a) 0 else s.memRead x := by
  induction bs generalizing s a with
  | nil =>
    rw [if_neg (by simp only [List.length_nil]; omega)]
    rfl
  | cons b bs ih =>
    rw [State.memWriteBytes, ih _ _ (wf_memWrite s a b hwf) (by simpa using hx)]
    rcases Nat.lt_trichotomy x a with h | h | h
    · rw [if_neg (by omega), if_neg (by omega), memRead_memWrite_other s b (Nat.ne_of_lt h)]
    · subst h
      rw [if_neg (by omega), if_pos (by simp), memRead_memWrite_same s b hwf hx]
      simp
    · obtain ⟨d, rfl⟩ : ∃ d, x = a + 1 + d := ⟨x - (a + 1), by omega⟩
      have e1 : a + 1 + d - (a + 1) = d := by omega
      have e2 : a + 1 + d - a = d + 1 := by omega
      rw [memRead_memWrite_other s b (by omega), e1, e2, List.getD_cons_succ]
      by_cases hd : d < bs.length
      · rw [if_pos (by omega), if_pos (by simp only [List.length_cons]; omega)]
      · rw [if_neg (by omega), if_neg (by simp only [List.length_cons]; omega)]

/-- Outside the bytes written, and outside RAM, nothing changes. -/
theorem memRead_memWriteBytes_other (s : State) (a : Nat) (bs : List Byte) (x : Nat)
    (hx : x < a ∨ a + bs.length ≤ x) : (s.memWriteBytes a bs).memRead x = s.memRead x := by
  induction bs generalizing s a with
  | nil => rfl
  | cons b bs ih =>
    simp only [List.length_cons] at hx
    rw [State.memWriteBytes, ih _ _ (by omega), memRead_memWrite_other s b (by omega)]

/-- The k-th byte of a byte-wise read. -/
theorem getElem?_memReadBytes (s : State) (a : Nat) {n k : Nat} (h : k < n) :
    (s.memReadBytes a n)[k]? = some (s.memRead (a + k)) := by
  simp [State.memReadBytes, h]

@[simp] theorem length_memReadBytes (s : State) (a n : Nat) : (s.memReadBytes a n).length = n := by
  simp [State.memReadBytes]

end Sys2Proof.Machine
end

