-- ==== Sys2Proof/Laws/State.lean ====
section
/-! SUPPORT. One lemma per field per update of State, each true by rfl, so that no later proof unfolds a record
update. -/

namespace Sys2Proof.Machine

section Raise
variable (s : State) (a : Addr) (c : FaultCause)

@[simp] theorem raiseAt_regs : (s.raiseAt a c).regs = s.regs := rfl
@[simp] theorem raiseAt_pc : (s.raiseAt a c).pc = s.pc := rfl
@[simp] theorem raiseAt_ramSize : (s.raiseAt a c).ramSize = s.ramSize := rfl
@[simp] theorem raiseAt_mem : (s.raiseAt a c).mem = s.mem := rfl
@[simp] theorem raiseAt_run : (s.raiseAt a c).run = .faulted := rfl
@[simp] theorem raiseAt_fault : (s.raiseAt a c).fault = some ⟨c, a⟩ := rfl
@[simp] theorem raiseAt_debug : (s.raiseAt a c).debugOut = s.debugOut := rfl

@[simp] theorem raise_regs : (s.raise c).regs = s.regs := rfl
@[simp] theorem raise_pc : (s.raise c).pc = s.pc := rfl
@[simp] theorem raise_ramSize : (s.raise c).ramSize = s.ramSize := rfl
@[simp] theorem raise_mem : (s.raise c).mem = s.mem := rfl
@[simp] theorem raise_run : (s.raise c).run = .faulted := rfl
@[simp] theorem raise_fault : (s.raise c).fault = some ⟨c, s.pc⟩ := rfl
@[simp] theorem raise_debug : (s.raise c).debugOut = s.debugOut := rfl

end Raise

section Halt
variable (s : State)

@[simp] theorem halt_regs : s.halt.regs = s.regs := rfl
@[simp] theorem halt_pc : s.halt.pc = s.pc := rfl
@[simp] theorem halt_ramSize : s.halt.ramSize = s.ramSize := rfl
@[simp] theorem halt_mem : s.halt.mem = s.mem := rfl
@[simp] theorem halt_run : s.halt.run = .halted := rfl
@[simp] theorem halt_fault : s.halt.fault = s.fault := rfl
@[simp] theorem halt_debug : s.halt.debugOut = s.debugOut := rfl

end Halt

section Write
variable (s : State) (i v : Byte)

@[simp] theorem writeReg_regs : (s.writeReg i v).regs = s.regs.set i.toNat v := rfl
@[simp] theorem writeReg_pc : (s.writeReg i v).pc = s.pc := rfl
@[simp] theorem writeReg_ramSize : (s.writeReg i v).ramSize = s.ramSize := rfl
@[simp] theorem writeReg_mem : (s.writeReg i v).mem = s.mem := rfl
@[simp] theorem writeReg_run : (s.writeReg i v).run = s.run := rfl
@[simp] theorem writeReg_fault : (s.writeReg i v).fault = s.fault := rfl
@[simp] theorem writeReg_debug : (s.writeReg i v).debugOut = s.debugOut := rfl

@[simp] theorem emit_regs : (s.emit i v).regs = s.regs := rfl
@[simp] theorem emit_pc : (s.emit i v).pc = s.pc := rfl
@[simp] theorem emit_ramSize : (s.emit i v).ramSize = s.ramSize := rfl
@[simp] theorem emit_mem : (s.emit i v).mem = s.mem := rfl
@[simp] theorem emit_run : (s.emit i v).run = s.run := rfl
@[simp] theorem emit_fault : (s.emit i v).fault = s.fault := rfl
@[simp] theorem emit_debug : (s.emit i v).debugOut = s.debugOut ++ [⟨i, v⟩] := rfl

end Write

/-! An advance keeps every field but pc, run state and fault record, whether it faults or not. -/

section Advance
variable (s : State) (n : Nat)

@[simp] theorem advanceTo_regs : (s.advanceTo n).regs = s.regs := by unfold State.advanceTo; split <;> rfl
@[simp] theorem advanceTo_pc : (s.advanceTo n).pc = BitVec.ofNat 32 n := by unfold State.advanceTo; split <;> rfl
@[simp] theorem advanceTo_ramSize : (s.advanceTo n).ramSize = s.ramSize := by
  unfold State.advanceTo; split <;> rfl
@[simp] theorem advanceTo_mem : (s.advanceTo n).mem = s.mem := by unfold State.advanceTo; split <;> rfl
@[simp] theorem advanceTo_debug : (s.advanceTo n).debugOut = s.debugOut := by unfold State.advanceTo; split <;> rfl
theorem advanceTo_run : (s.advanceTo n).run = if n < s.ramSize then s.run else .faulted := by
  unfold State.advanceTo; split <;> rfl
theorem advanceTo_fault : (s.advanceTo n).fault =
    if n < s.ramSize then s.fault else some ⟨.outOfBounds .pcAdvance n, s.pc⟩ := by
  unfold State.advanceTo; split <;> rfl

@[simp] theorem advanceBy_regs : (s.advanceBy n).regs = s.regs := advanceTo_regs _ _
@[simp] theorem advanceBy_pc : (s.advanceBy n).pc = BitVec.ofNat 32 (s.pc.toNat + n) := advanceTo_pc _ _
@[simp] theorem advanceBy_ramSize : (s.advanceBy n).ramSize = s.ramSize := advanceTo_ramSize _ _
@[simp] theorem advanceBy_mem : (s.advanceBy n).mem = s.mem := advanceTo_mem _ _
@[simp] theorem advanceBy_debug : (s.advanceBy n).debugOut = s.debugOut := advanceTo_debug _ _
theorem advanceBy_run : (s.advanceBy n).run = if s.pc.toNat + n < s.ramSize then s.run else .faulted :=
  advanceTo_run _ _
theorem advanceBy_fault : (s.advanceBy n).fault =
    if s.pc.toNat + n < s.ramSize then s.fault else some ⟨.outOfBounds .pcAdvance (s.pc.toNat + n), s.pc⟩ :=
  advanceTo_fault _ _

theorem advanceTo_of_lt {s : State} {n : Nat} (h : n < s.ramSize) :
    s.advanceTo n = { s with pc := BitVec.ofNat 32 n } := if_pos h

theorem advanceTo_of_le {s : State} {n : Nat} (h : s.ramSize ≤ n) :
    s.advanceTo n = { s with pc := BitVec.ofNat 32 n, run := .faulted,
                             fault := some ⟨.outOfBounds .pcAdvance n, s.pc⟩ } :=
  if_neg (Nat.not_lt.mpr h)

end Advance

/-! The accessors that read one field. -/

theorem nreg_of_regs {s t : State} (h : t.regs = s.regs) : t.nreg = s.nreg := by unfold State.nreg; rw [h]

theorem reg_of_regs {s t : State} (h : t.regs = s.regs) (i : Byte) : t.reg i = s.reg i := by
  unfold State.reg; rw [h]

theorem memRead_of_mem {s t : State} (h : t.mem = s.mem) (a : Nat) : t.memRead a = s.memRead a := by
  unfold State.memRead; rw [h]

@[simp] theorem nreg_writeReg (s : State) (i v : Byte) : (s.writeReg i v).nreg = s.nreg := by
  simp [State.nreg]

@[simp] theorem nreg_advanceTo (s : State) (n : Nat) : (s.advanceTo n).nreg = s.nreg :=
  nreg_of_regs (advanceTo_regs s n)

@[simp] theorem nreg_advanceBy (s : State) (n : Nat) : (s.advanceBy n).nreg = s.nreg :=
  nreg_of_regs (advanceBy_regs s n)

@[simp] theorem nreg_emit (s : State) (i v : Byte) : (s.emit i v).nreg = s.nreg := rfl

/-- A valid register reads back what was written to it (R20). -/
theorem reg_writeReg_same (s : State) (i v : Byte) (h : i.toNat < s.nreg) : (s.writeReg i v).reg i = v := by
  have h' : i.toNat < s.regs.length := h
  simp [State.reg, h']

/-- A write leaves every other register alone. -/
theorem reg_writeReg_other (s : State) (i j v : Byte) (h : j ≠ i) : (s.writeReg i v).reg j = s.reg j := by
  have hne : i.toNat ≠ j.toNat := fun e => h (BitVec.eq_of_toNat_eq e.symm)
  simp [State.reg, List.getElem?_set_ne hne]

/-! Updates of different fields commute. -/

section Commute
variable (s : State) (i v : Byte) (m : Memory) (d : List DebugEvent)

theorem advanceTo_writeReg (n : Nat) : (s.writeReg i v).advanceTo n = (s.advanceTo n).writeReg i v := by
  rcases Nat.lt_or_ge n s.ramSize with h | h
  · rw [advanceTo_of_lt h, advanceTo_of_lt (s := s.writeReg i v) h]
    rfl
  · rw [advanceTo_of_le h, advanceTo_of_le (s := s.writeReg i v) h]
    rfl

theorem advanceTo_setMem (n : Nat) :
    State.advanceTo { s with mem := m } n = { s.advanceTo n with mem := m } := by
  rcases Nat.lt_or_ge n s.ramSize with h | h
  · rw [advanceTo_of_lt h, advanceTo_of_lt (s := { s with mem := m }) h]
  · rw [advanceTo_of_le h, advanceTo_of_le (s := { s with mem := m }) h]

theorem advanceTo_setDebug (n : Nat) :
    State.advanceTo { s with debugOut := d } n = { s.advanceTo n with debugOut := d } := by
  rcases Nat.lt_or_ge n s.ramSize with h | h
  · rw [advanceTo_of_lt h, advanceTo_of_lt (s := { s with debugOut := d }) h]
  · rw [advanceTo_of_le h, advanceTo_of_le (s := { s with debugOut := d }) h]

theorem raise_writeReg (c : FaultCause) : (s.writeReg i v).raise c = (s.raise c).writeReg i v := rfl

theorem halt_writeReg : (s.writeReg i v).halt = s.halt.writeReg i v := rfl

end Commute

/-- A write at an invalid index changes nothing; no instruction makes one (R21). -/
theorem writeReg_invalid (s : State) (i v : Byte) (h : s.nreg ≤ i.toNat) : s.writeReg i v = s := by
  have h' : s.regs.length ≤ i.toNat := h
  simp [State.writeReg, List.set_eq_of_length_le h']

end Sys2Proof.Machine
end

