-- ==== Sys2Proof/Laws/Ops.lean ====
section
/-! SUPPORT. One spec lemma for each shared operation: everything it can do, said once. -/

namespace Sys2Proof.Machine

/-! ## The parameters -/

/-- The ranges of R9. -/
theorem wf_config {c : Config} :
    c.wf = true ↔ 1 ≤ c.nreg ∧ c.nreg ≤ 256 ∧ 1 ≤ c.ramSize ∧ c.ramSize ≤ 2 ^ 32 - 1 := by
  simp only [Config.wf, Bool.and_eq_true, decide_eq_true_eq, and_assoc]

/-! ## checkReg -/

theorem checkReg_valid {s : State} {i : Byte} (next : State) (h : i.toNat < s.nreg) : s.checkReg i next = next := by
  simp [State.checkReg, regIndexOk, h]

theorem checkReg_invalid {s : State} {i : Byte} (next : State) (h : s.nreg ≤ i.toNat) :
    s.checkReg i next = s.raise (.invalidRegister i) := by
  simp [State.checkReg, regIndexOk, h]

/-! ## The ALU -/

theorem toNat_addResult (a b c : Byte) : (addResult a b c).toNat = (a.toNat + b.toNat + c.toNat) % 256 := by
  simp [addResult]

theorem toNat_subResult (a b c : Byte) :
    ((subResult a b c).toNat : Int) = ((a.toNat : Int) - b.toNat - c.toNat) % 256 := by
  have h := Int.emod_nonneg ((a.toNat : Int) - b.toNat - c.toNat) (by decide : (256 : Int) ≠ 0)
  simp [subResult, BitVec.toNat_ofInt, h]

/-! ## The jump target -/

@[simp] theorem jumpTarget_eq (t : Byte) : jumpTarget t = t.toNat := by
  have := t.isLt
  simp [jumpTarget]
  omega

/-! ## The advance -/

/-- What an advance does, whether it faults or not (R106, R107). -/
theorem goesOnAt_advanceTo (s : State) (n : Nat) : GoesOnAt s (s.advanceTo n) n := by
  refine ⟨advanceTo_pc s n, fun h => ?_, fun h => ?_⟩
  · simp [advanceTo_run, advanceTo_fault, h]
  · simp [advanceTo_run, advanceTo_fault, Nat.not_lt.mpr h]

theorem sameRam_advanceTo (s : State) (n : Nat) : SameRam s (s.advanceTo n) :=
  ⟨advanceTo_ramSize s n, fun _ => memRead_of_mem (advanceTo_mem s n) _⟩

/-- An advance after a change of registers or debug output goes on where it would have without it. -/
theorem GoesOnAt.of_fields {s s' t : State} {n : Nat} (h : GoesOnAt s' t n) (hpc : s'.pc = s.pc)
    (hrun : s'.run = s.run) (hfault : s'.fault = s.fault) (hsize : s'.ramSize = s.ramSize) : GoesOnAt s t n := by
  obtain ⟨h1, h2, h3⟩ := h
  rw [hsize, hrun, hfault] at h2
  rw [hsize, hpc] at h3
  exact ⟨h1, h2, h3⟩

/-! ## Fetch -/

/-- The answer of a fetch: an illegal opcode, an operand outside RAM, or the instruction whose bytes stand at
pc (R101-R104). -/
theorem fetchInstr_cases (s : State) :
    (8 ≤ (s.memRead s.pc.toNat).toNat ∧
      s.fetchInstr = .error (.unknownInstruction (s.memRead s.pc.toNat))) ∨
    ∃ op : Opcode, s.memRead s.pc.toNat = op.toByte ∧
      ((s.ramSize ≤ s.pc.toNat + op.noper ∧ s.fetchInstr = .error (.outOfBounds .operandFetch s.ramSize)) ∨
       (s.pc.toNat + op.noper < s.ramSize ∧
        s.fetchInstr = .ok (op.instr fun k => s.memRead (s.pc.toNat + k)))) := by
  cases h : Opcode.ofByte? (s.memRead s.pc.toNat) with
  | none => exact .inl ⟨Opcode.ofByte?_eq_none.mp h, by simp [State.fetchInstr, h]⟩
  | some op =>
    refine .inr ⟨op, Opcode.toByte_of_ofByte? h, ?_⟩
    by_cases hb : s.pc.toNat + op.noper < s.ramSize
    · exact .inr ⟨hb, by simp [State.fetchInstr, h, hb]⟩
    · exact .inl ⟨by omega, by simp [State.fetchInstr, h, hb]⟩

/-- The table of operand counts agrees with NOPER. -/
theorem operandCount_toByte (op : Opcode) : operandCount op.toByte.toNat = op.noper := by cases op <;> rfl

/-- The bytes that a Running CORE has at pc, one by one. -/
theorem memRead_of_runsAt {s : State} {bs : List Byte} (h : RunsAt s bs) {k : Nat} (hk : k < bs.length) :
    s.memRead (s.pc.toNat + k) = bs.getD k 0 := by
  have hb := getElem?_memReadBytes s s.pc.toNat hk
  rw [h.2.2] at hb
  simp [hb]

/-! ## The reset loader -/

/-- RAM after reset: the image, then the fill. -/
theorem memRead_ofImage (c : Config) (image : List Byte) {a : Nat} (h : a < c.ramSize) :
    (State.ofImage c image).memRead a = image.getD a 0x00 := by
  unfold State.ofImage
  rw [memRead_memWriteBytes _ _ _ rfl _ h]
  by_cases hi : a < image.length
  · simp [hi, h]
  · simp [hi, State.memRead, Memory.unlisted]

theorem ofImage_eq (c : Config) (image : List Byte) :
    State.ofImage c image =
      { regs := List.replicate c.nreg 0, pc := 0, ramSize := c.ramSize, mem := (State.ofImage c image).mem,
        run := .running, fault := none, debugOut := [] } := by
  unfold State.ofImage
  exact memWriteBytes_eq _ _ _

@[simp] theorem ofImage_regs (c : Config) (image : List Byte) :
    (State.ofImage c image).regs = List.replicate c.nreg 0 := by rw [ofImage_eq]
@[simp] theorem ofImage_pc (c : Config) (image : List Byte) : (State.ofImage c image).pc = 0 := by rw [ofImage_eq]
@[simp] theorem ofImage_ramSize (c : Config) (image : List Byte) :
    (State.ofImage c image).ramSize = c.ramSize := by rw [ofImage_eq]
@[simp] theorem ofImage_run (c : Config) (image : List Byte) : (State.ofImage c image).run = .running := by
  rw [ofImage_eq]
@[simp] theorem ofImage_fault (c : Config) (image : List Byte) : (State.ofImage c image).fault = none := by
  rw [ofImage_eq]
@[simp] theorem ofImage_debug (c : Config) (image : List Byte) : (State.ofImage c image).debugOut = [] := by
  rw [ofImage_eq]
@[simp] theorem ofImage_nreg (c : Config) (image : List Byte) : (State.ofImage c image).nreg = c.nreg := by
  simp [State.nreg]

end Sys2Proof.Machine
end

