-- ==== Sys2Proof/Laws/Exec.lean ====
section
/-! SUPPORT. What an instruction and a step can do, said once; every claim about all instructions is derived from
these. -/

namespace Sys2Proof.Machine

/-- The write an instruction makes before it advances: registers and debug output. -/
def effectOf (i : Instr) (s : State) : State :=
  match i with
  | .exit => s
  | .store r imm => s.writeReg r imm
  | .load r imm => s.writeReg r imm
  | .add d src imm => s.writeReg d (addResult (s.reg d) (s.reg src) imm)
  | .sub d src imm => s.writeReg d (subResult (s.reg d) (s.reg src) imm)
  | .ifImm _ _ => s
  | .jmp _ => s
  | .dpr r => s.emit r (s.reg r)

/-- Where an instruction goes on; none for EXIT. -/
def goesOnTo (i : Instr) (s : State) : Option Nat :=
  match i with
  | .exit => none
  | .jmp t => some t.toNat
  | i => some (s.pc.toNat + (i.opcode.noper + 1))

/-- The first register index of an instruction that names no register. -/
def firstBad (i : Instr) (s : State) : Option Byte := i.regOperands.find? fun j => s.nreg ≤ j.toNat

/-- Checking one index, as a search for the first bad one. -/
theorem checkReg_one (s next : State) (r : Byte) :
    s.checkReg r next = match [r].find? fun j => s.nreg ≤ j.toNat with
      | some j => s.raise (.invalidRegister j)
      | none => next := by
  by_cases h : s.nreg ≤ r.toNat
  · rw [checkReg_invalid next h]; simp [List.find?, h]
  · rw [checkReg_valid next (by omega)]; simp [List.find?, h]

/-- Checking two indices, as a search for the first bad one. -/
theorem checkReg_two (s next : State) (d r : Byte) :
    s.checkReg d (s.checkReg r next) = match [d, r].find? fun j => s.nreg ≤ j.toNat with
      | some j => s.raise (.invalidRegister j)
      | none => next := by
  by_cases h : s.nreg ≤ d.toNat
  · rw [checkReg_invalid _ h]; simp [List.find?, h]
  · rw [checkReg_valid _ (by omega), checkReg_one]; simp [List.find?, h]

/-- An instruction faults on its first invalid index, or halts, or makes its write and advances. -/
theorem exec_eq (i : Instr) (s : State) :
    exec i s = .next (match firstBad i s with
      | some j => s.raise (.invalidRegister j)
      | none =>
        match goesOnTo i s with
        | none => s.halt
        | some n => (effectOf i s).advanceTo n) := by
  cases i with
  | exit => rfl
  | store r imm => exact congrArg _ (checkReg_one _ _ r)
  | load r imm => exact congrArg _ (checkReg_one _ _ r)
  | add d src imm => exact congrArg _ (checkReg_two _ _ d src)
  | sub d src imm => exact congrArg _ (checkReg_two _ _ d src)
  | ifImm r imm => exact congrArg _ (checkReg_one _ _ r)
  | jmp t => simp [exec, execJmp, firstBad, Instr.regOperands, goesOnTo, effectOf]
  | dpr r => exact congrArg _ (checkReg_one _ _ r)

@[simp] theorem effectOf_pc (i : Instr) (s : State) : (effectOf i s).pc = s.pc := by cases i <;> rfl
@[simp] theorem effectOf_ramSize (i : Instr) (s : State) : (effectOf i s).ramSize = s.ramSize := by cases i <;> rfl
@[simp] theorem effectOf_mem (i : Instr) (s : State) : (effectOf i s).mem = s.mem := by cases i <;> rfl
@[simp] theorem effectOf_run (i : Instr) (s : State) : (effectOf i s).run = s.run := by cases i <;> rfl
@[simp] theorem effectOf_fault (i : Instr) (s : State) : (effectOf i s).fault = s.fault := by cases i <;> rfl
@[simp] theorem effectOf_nreg (i : Instr) (s : State) : (effectOf i s).nreg = s.nreg := by
  cases i <;> simp [effectOf]

/-- Everything an instruction can do, as three cases. -/
theorem exec_cases (i : Instr) (s : State) :
    (∃ j, firstBad i s = some j ∧ exec i s = .next (s.raise (.invalidRegister j))) ∨
    (firstBad i s = none ∧ goesOnTo i s = none ∧ i = .exit ∧ exec i s = .next s.halt) ∨
    (∃ n, firstBad i s = none ∧ goesOnTo i s = some n ∧ i ≠ .exit ∧
      exec i s = .next ((effectOf i s).advanceTo n)) := by
  rw [exec_eq]
  cases h : firstBad i s with
  | some j => exact .inl ⟨j, rfl, rfl⟩
  | none =>
    cases hn : goesOnTo i s with
    | none => exact .inr (.inl ⟨rfl, rfl, by cases i <;> simp_all [goesOnTo], rfl⟩)
    | some n => exact .inr (.inr ⟨n, rfl, rfl, by rintro rfl; simp [goesOnTo] at hn, rfl⟩)

/-- An instruction with valid indices, other than EXIT, makes its write and goes on. -/
theorem exec_of_wf {i : Instr} {s : State} {n : Nat} (h : i.wf s.nreg = true) (hn : goesOnTo i s = some n) :
    exec i s = .next ((effectOf i s).advanceTo n) := by
  have hb : firstBad i s = none := by
    simp only [Instr.wf, List.all_eq_true, regIndexOk, decide_eq_true_eq] at h
    simp only [firstBad, List.find?_eq_none, decide_eq_true_eq, Nat.not_le]
    exact h
  rw [exec_eq, hb, hn]

/-- Where and how an instruction that goes on leaves the CORE. -/
theorem goesOnAt_effect (i : Instr) (s : State) (n : Nat) : GoesOnAt s ((effectOf i s).advanceTo n) n :=
  (goesOnAt_advanceTo _ _).of_fields (effectOf_pc i s) (effectOf_run i s) (effectOf_fault i s) (effectOf_ramSize i s)

/-- An instruction leaves RAM alone. -/
theorem sameRam_effect (i : Instr) (s : State) (n : Nat) : SameRam s ((effectOf i s).advanceTo n) :=
  ⟨by simp, fun a => memRead_of_mem (by simp) a⟩

/-- A register write and an advance leave every other register alone. -/
theorem sameRegsExcept_write (s : State) (d v : Byte) (n : Nat) :
    SameRegsExcept s ((s.writeReg d v).advanceTo n) d :=
  ⟨by simp, fun i hi => (reg_of_regs (advanceTo_regs _ _) i).trans (reg_writeReg_other s d i v hi)⟩

/-- A register write is still there after the advance. -/
theorem reg_write_advanceTo {s : State} {d : Byte} (v : Byte) (n : Nat) (h : d.toNat < s.nreg) :
    ((s.writeReg d v).advanceTo n).reg d = v :=
  (reg_of_regs (advanceTo_regs _ _) d).trans (reg_writeReg_same s d v h)

/-- Everything an enabled step can do: a fault of the fetch, or the instruction at pc. -/
theorem step_cases {s : State} (h : s.stepEnabled = true) :
    (8 ≤ (s.memRead s.pc.toNat).toNat ∧
      step s = .next (s.raise (.unknownInstruction (s.memRead s.pc.toNat)))) ∨
    ∃ op : Opcode, s.memRead s.pc.toNat = op.toByte ∧
      ((s.ramSize ≤ s.pc.toNat + op.noper ∧ step s = .next (s.raise (.outOfBounds .operandFetch s.ramSize))) ∨
       (s.pc.toNat + op.noper < s.ramSize ∧
        step s = exec (op.instr fun k => s.memRead (s.pc.toNat + k)) s)) := by
  rcases fetchInstr_cases s with ⟨h8, hf⟩ | ⟨op, hop, ⟨hb, hf⟩ | ⟨hb, hf⟩⟩
  · exact .inl ⟨h8, by simp [step, h, hf]⟩
  · exact .inr ⟨op, hop, .inl ⟨hb, by simp [step, h, hf]⟩⟩
  · exact .inr ⟨op, hop, .inr ⟨hb, by simp [step, h, hf]⟩⟩

theorem stepEnabled_iff {s : State} : s.stepEnabled = true ↔ s.run = .running ∧ s.pc.toNat < s.ramSize := by
  simp [State.stepEnabled]

/-- A step that has a next state was enabled. -/
theorem stepEnabled_of_next {s t : State} (h : step s = .next t) : s.stepEnabled = true := by
  by_contra hn
  simp only [step, if_neg hn, State.noStep] at h
  split at h <;> simp at h

end Sys2Proof.Machine
end

