-- ==== Sys2Proof/Laws/PerInstr.lean ====
section
/-! SUPPORT. Statements made per instruction, one lemma per constructor of Instr. -/

namespace Sys2Proof.Laws.EncodeShape

/-- The encoding of an instruction begins with its opcode's byte, which decodes to that opcode, and has as
many bytes as the opcode map gives the opcode (R60, R70, R73). -/
def Statement (i : Instr) : Prop :=
  (encode i).length = 1 + i.opcode.noper ∧ (encode i).head?.bind Opcode.ofByte? = some i.opcode

theorem exit : Statement .exit := ⟨rfl, rfl⟩
theorem store (r imm : Byte) : Statement (.store r imm) := ⟨rfl, rfl⟩
theorem load (r imm : Byte) : Statement (.load r imm) := ⟨rfl, rfl⟩
theorem add (d s imm : Byte) : Statement (.add d s imm) := ⟨rfl, rfl⟩
theorem sub (d s imm : Byte) : Statement (.sub d s imm) := ⟨rfl, rfl⟩
theorem ifImm (r imm : Byte) : Statement (.ifImm r imm) := ⟨rfl, rfl⟩
theorem jmp (t : Byte) : Statement (.jmp t) := ⟨rfl, rfl⟩
theorem dpr (r : Byte) : Statement (.dpr r) := ⟨rfl, rfl⟩

end Sys2Proof.Laws.EncodeShape
end

