-- ==== Sys2Proof/Tests/Slice0.lean ====
section
/-! SUPPORT. The model's own tests. Expected results are the vectors of 95_test_vectors.md, named by their ids there,
or words written out from the encodings of 30_encoding.md; `witness_<statement>` theorems show states and operands
that meet a statement's hypotheses. -/

namespace Sys2Proof.Machine.Tests

/-- The next state of an outcome. -/
def nextOf : Host.Outcome State Fault Refusal → Option State
  | .next t => some t
  | .fault _ => none
  | .refused _ => none

/-- A Running state in a configuration, with pc, some registers from x[0] on, and bytes at pc. -/
def sample (c : Config) (pc : Addr) (regs bytes : List Byte) : State :=
  State.memWriteBytes
    { State.ofImage c [] with pc := pc, regs := regs ++ List.replicate (c.nreg - regs.length) 0 } pc.toNat bytes

/-- A sample in the test configuration (D18). -/
def at8 (pc : Addr) (regs bytes : List Byte) : State := sample Config.test pc regs bytes

/-- The step of a sample, as an option. -/
def stepped (s : State) : Option State := nextOf (step s)

/-- What most vectors name: registers, pc, run state and fault record. -/
def view (t : State) : List Byte × Addr × RunState × Option FaultRecord := (t.regs, t.pc, t.run, t.fault)

theorem nextOf_eq_some {o : Host.Outcome State Fault Refusal} {t : State} (h : nextOf o = some t) : o = .next t := by
  cases o <;> simp_all [nextOf]

/-! ## Decoding: words written out from R62 and R70 -/

theorem test_decode_exit : decode [0b00000000] = .ok (.exit, []) := by decide
theorem test_decode_store : decode [0b00000001, 0b00000011, 0b11001000] = .ok (.store 3 200, []) := by decide
theorem test_decode_load : decode [0b00000010, 0b00000010, 0b11001000] = .ok (.load 2 200, []) := by decide
theorem test_decode_add :
    decode [0b00000011, 0b00000001, 0b00000010, 0b00000011] = .ok (.add 1 2 3, []) := by decide
theorem test_decode_sub :
    decode [0b00000100, 0b00000001, 0b00000010, 0b01100100] = .ok (.sub 1 2 100, []) := by decide
theorem test_decode_if : decode [0b00000101, 0b00000000, 0b00000110] = .ok (.ifImm 0 6, []) := by decide
theorem test_decode_jmp : decode [0b00000110, 0b11111111] = .ok (.jmp 255, []) := by decide
theorem test_decode_dpr : decode [0b00000111, 0b00000001, 0b11111111] = .ok (.dpr 1, [255]) := by decide
theorem test_decode_unknown : decode [0b00001000, 1, 2, 3] = .error (.unknownOpcode 8) := by decide
theorem test_decode_short : decode [0b00000011, 1, 2] = .error (.missingOperands .add) := by decide
theorem test_decode_empty : decode [] = .error .noBytes := by decide
/-- The table's numbering: the first byte is bits 7..0. -/
theorem test_table_word : decodeTableWord 24 0xC80201 = some (.store 2 200) := by decide
/-- Operand bytes the table gives no bits are 0. -/
theorem test_table_word_opcode_only : decodeTableWord 8 0xFF03 = some (.add 0 0 0) := by decide
theorem test_table_word_refused : decodeTableWord 8 0x08 = none := by decide

/-! ## Well-formedness: an ill-formed term for each check -/

theorem smoke_store : Instr.wf 8 (.store 7 0) = true ∧ Instr.wf 8 (.store 8 0) = false := by decide
theorem smoke_load : Instr.wf 1 (.load 0 9) = true ∧ Instr.wf 1 (.load 1 9) = false := by decide
theorem smoke_add_dest : Instr.wf 8 (.add 8 0 1) = false := by decide
theorem smoke_add_src : Instr.wf 8 (.add 0 9 1) = false := by decide
theorem smoke_sub_dest : Instr.wf 8 (.sub 255 0 1) = false := by decide
theorem smoke_sub_src : Instr.wf 8 (.sub 0 8 1) = false := by decide
theorem smoke_if : Instr.wf 8 (.ifImm 8 0) = false := by decide
theorem smoke_dpr : Instr.wf 8 (.dpr 8) = false := by decide
theorem smoke_no_index : Instr.wf 1 .exit = true ∧ Instr.wf 1 (.jmp 255) = true := by decide
theorem smoke_config_low : Config.wf ⟨0, 1⟩ = false ∧ Config.wf ⟨1, 0⟩ = false ∧ Config.wf ⟨1, 1⟩ = true := by decide
theorem smoke_config_high :
    Config.wf ⟨257, 1⟩ = false ∧ Config.wf ⟨1, 2 ^ 32⟩ = false ∧ Config.wf ⟨256, 2 ^ 32 - 1⟩ = true := by decide

/-! ## One step of each instruction -/

/-- H2: EXIT at the last byte of a one-byte RAM halts. -/
theorem test_exit_last_byte : (stepped (sample ⟨8, 1⟩ 0 [] [0x00])).map (fun t => (t.pc, t.run)) = some (0, .halted) := by
  decide
/-- H3. -/
theorem test_exit_255 : (stepped (at8 255 [] [0x00])).map (fun t => (t.pc, t.run)) = some (255, .halted) := by decide
/-- S2: the highest valid index. -/
theorem test_store_last_register :
    (stepped (at8 0 [] [0x01, 0x07, 0xFF])).map view = some ([0, 0, 0, 0, 0, 0, 0, 255], 3, .running, none) := by decide
/-- S7: the write stays when the advance leaves RAM. -/
theorem test_store_end_of_ram :
    (stepped (at8 253 [] [0x01, 0x00, 0x05])).map view =
      some ([5, 0, 0, 0, 0, 0, 0, 0], 256, .faulted, some ⟨.outOfBounds .pcAdvance 256, 253⟩) := by decide
/-- S12: LOAD does not read RAM at 7. -/
theorem test_load_reads_no_ram :
    (stepped ((at8 0 [] [0x02, 0x03, 0x07]).memWrite 7 0x99)).map view =
      some ([0, 0, 0, 7, 0, 0, 0, 0], 3, .running, none) := by decide
/-- S6: the first invalid index. -/
theorem test_load_invalid :
    (stepped (at8 0 [] [0x02, 0x08, 0x00])).map view =
      some ([0, 0, 0, 0, 0, 0, 0, 0], 0, .faulted, some ⟨.invalidRegister 8, 0⟩) := by decide
/-- A4, W2 with C1: d = s counts twice, so 254 and not the source's 4. -/
theorem test_add_counts_twice :
    (stepped (at8 0 [250] [0x03, 0x00, 0x00, 0x0A])).map view = some ([254, 0, 0, 0, 0, 0, 0, 0], 4, .running, none) := by
  decide
/-- A10: d is checked before s. -/
theorem test_add_checks_dest_first :
    (stepped (at8 0 [] [0x03, 0x0A, 0x0B, 0x00])).map (fun t => t.fault) = some (some ⟨.invalidRegister 0x0A, 0⟩) := by
  decide
/-- B3: the lowest difference. -/
theorem test_sub_lowest :
    (stepped (at8 0 [9, 0, 255] [0x04, 0x01, 0x02, 0xFF])).map view =
      some ([9, 2, 255, 0, 0, 0, 0, 0], 4, .running, none) := by decide
/-- B9: s is checked, and nothing is written. -/
theorem test_sub_invalid_src :
    (stepped (at8 0 [0, 6] [0x04, 0x01, 0x08, 0x00])).map view =
      some ([0, 6, 0, 0, 0, 0, 0, 0], 0, .faulted, some ⟨.invalidRegister 8, 0⟩) := by decide
/-- I1: the comparison would hold, and IF falls through. -/
theorem test_if_falls_through :
    (stepped (at8 6 [5] [0x05, 0x00, 0x05])).map view = some ([5, 0, 0, 0, 0, 0, 0, 0], 9, .running, none) := by decide
/-- I4. -/
theorem test_if_end_of_ram :
    (stepped (at8 253 [] [0x05, 0x00, 0x00])).map (fun t => (t.pc, t.fault)) =
      some (256, some ⟨.outOfBounds .pcAdvance 256, 253⟩) := by decide
/-- J7: absolute, not 9 + 1. -/
theorem test_jmp_absolute : (stepped (at8 9 [] [0x06, 0x01])).map (fun t => (t.pc, t.run)) = some (1, .running) := by decide
/-- J5: a target equal to RAM_SIZE. -/
theorem test_jmp_to_ram_size :
    (stepped (sample ⟨8, 16⟩ 0 [] [0x06, 0x10])).map (fun t => (t.pc, t.run, t.fault)) =
      some (16, .faulted, some ⟨.outOfBounds .pcAdvance 16, 0⟩) := by decide
/-- P3: the event stays when the advance leaves RAM. -/
theorem test_dpr_end_of_ram :
    (stepped (at8 254 [0, 0, 3] [0x07, 0x02])).map (fun t => (t.debugOut, t.pc, t.fault)) =
      some ([⟨2, 3⟩], 256, some ⟨.outOfBounds .pcAdvance 256, 254⟩) := by decide
/-- P4: the operand byte is outside RAM. -/
theorem test_dpr_operand_outside :
    (stepped (at8 255 [] [0x07])).map (fun t => (t.debugOut, t.pc, t.fault)) =
      some ([], 255, some ⟨.outOfBounds .operandFetch 256, 255⟩) := by decide

/-! ## The step around the instruction, reset, interface -/

/-- D4: the opcode is checked before any bound. -/
theorem test_unknown_at_end :
    (stepped (at8 255 [9] [0xFF])).map view =
      some ([9, 0, 0, 0, 0, 0, 0, 0], 255, .faulted, some ⟨.unknownInstruction 0xFF, 255⟩) := by decide
/-- A12: an operand outside RAM is found before an invalid index would be. -/
theorem test_operands_before_index :
    (stepped (at8 253 [] [0x03, 0x08, 0x09])).map (fun t => (t.pc, t.fault)) =
      some (253, some ⟨.outOfBounds .operandFetch 256, 253⟩) := by decide
/-- D5: no step in a terminal state. -/
theorem test_no_step_when_halted : step (at8 0 [] [0x01]).halt = .fault .noStepEnabled := rfl
/-- The state no run reaches: Running with pc at RAM_SIZE. -/
theorem test_no_fetch_outside_ram : step (at8 256 [] []) = .fault .fetchOutsideRam := rfl
/-- RS2 on a small RAM: the image is cut at RAM_SIZE. -/
theorem test_image_truncated : (State.ofImage ⟨1, 2⟩ [1, 2, 3]).outputs.mem = [1, 2] := by decide
/-- R200, D3: 0x00 past the image, and a 0x00 of the image is not listed. -/
theorem test_image_fill :
    (State.ofImage ⟨1, 4⟩ [1, 0, 2]).outputs.mem = [1, 0, 2, 0] ∧
    (State.ofImage ⟨1, 4⟩ [1, 0, 2]).mem = [(0, 1), (2, 2)] := by decide
/-- S10 reads the index against NREG = 1. -/
theorem test_nreg_one :
    (stepped (sample ⟨1, 256⟩ 0 [] [0x01, 0x01, 0x07])).map (fun t => t.fault) =
      some (some ⟨.invalidRegister 1, 0⟩) := by decide
/-- R33, R34: the host-visible codes. -/
theorem test_codes :
    [RunState.running, .halted, .faulted].map RunState.code = [0, 1, 2] ∧
    [FaultCause.unknownInstruction 9, .invalidRegister 9, .outOfBounds .pcAdvance 9].map FaultCause.code = [1, 2, 3] := by
  decide
/-- A placed word is what the next step runs. -/
theorem test_withFetchWord :
    (stepped (State.reset.withFetchWord 24 0x050301)).map (fun t => (t.reg 3, t.pc)) = some (5, 3) := by decide
/-- R113: a reset command keeps the parameters and nothing else. -/
theorem test_reset_command :
    (Command.reset [0x07]).apply (at8 9 [1, 2] [0x01]).halt = State.ofImage Config.test [0x07] := by decide

/-! ## The assembler -/

/-- The identifiers of these tests: lower-case letters. The source gives no character set. -/
def lower (t : List Char) : Bool := !t.isEmpty && t.all fun c => 'a' ≤ c && c ≤ 'z'

/-- P4's text and image. -/
theorem test_assemble_p4 :
    assemble 4 lower "STORE R0, 3\nSTORE R1, 1\nSUB R0, R1, 5\nIF R0, 253, done\nDPR R0\ndone:\nEXIT\n".toList =
      .ok [0x01, 0x00, 0x03, 0x01, 0x01, 0x01, 0x04, 0x00, 0x01, 0x05, 0x05, 0x00, 0xFD, 0x07, 0x00, 0x00] := by
  decide +kernel
/-- P3's text and image; pass 1 puts `end` at 6 (C12). -/
theorem test_assemble_p3 :
    assemble 4 lower "JMP end\nSTORE R0, 5\nend:\nEXIT".toList = .ok [0x06, 0x01, 0x00, 0x05, 0x00] ∧
    passOne 4 0 [] (linesOf lower "JMP end\nSTORE R0, 5\nend:\nEXIT".toList) = .ok [("end".toList, 6)] := by
  decide +kernel
/-- W3, R84, R83, C7, R87. -/
theorem test_assemble_errors :
    assemble 4 lower "FOO".toList = .error .unknownMnemonic ∧
    assemble 4 lower "STORE R0, 256".toList = .error .badImmediate ∧
    assemble 4 lower "STORE X0, 1".toList = .error .badRegister ∧
    assemble 4 lower "STORE R0,5".toList = .error (.operandCount 1) ∧
    assemble 4 lower "JMP nowhere".toList = .error .unresolvedLabel ∧
    assemble 0 lower "a:".toList = .error .tooManyLabels ∧
    assemble 4 lower "a:\na:".toList = .error .duplicateLabel := by
  decide +kernel

/-- R85: the count error names the offending line, here the third, after an instruction and an empty line. -/
theorem test_assemble_count_line : assemble 4 lower "EXIT\n\nDPR\nEXIT".toList = .error (.operandCount 3) := by
  decide +kernel

/-! ## Witnesses: states and operands that meet the statements' hypotheses -/

/-- A STORE whose three bytes end exactly at the end of RAM. -/
def storeAtEnd : State := at8 253 [] [0x01, 0x07, 0x05]
/-- A one-instruction loop at address 0. -/
def selfLoop : State := at8 0 [1, 2] [0x06, 0x00]

theorem witness_OpcodeBytesDecode : 8 ≤ (0x08 : Byte).toNat := by decide
theorem witness_LengthIsFixedByTheOpcodeByte :
    decode (0x00 :: []) = .ok (.exit, []) ∧ decode (0x07 :: [9]) = .ok (.dpr 9, []) ∧
    decode (0x05 :: [1, 2, 3]) = .ok (.ifImm 1 2, [3]) ∧ decode (0x04 :: [1, 2, 3]) = .ok (.sub 1 2 3, []) := by decide
theorem witness_StepRunsTheDecodedInstruction :
    RunsAt storeAtEnd [0x01, 0x07, 0x05] ∧ decode [0x01, 0x07, 0x05] = .ok (.store 7 5, []) :=
  ⟨⟨rfl, by decide, by decide⟩, by decide⟩
theorem witness_PlacedWordIsTheNextInstruction :
    (at8 252 [] []).memOk = true ∧ (at8 252 [] []).run = .running ∧ (252 : Addr).toNat + 4 ≤ (at8 252 [] []).ramSize ∧
    decodeTableWord 32 0x04030203 = some (.add 2 3 4) := by decide
theorem witness_UnknownOpcodeFaults :
    (at8 255 [] [0x08]).run = .running ∧ (at8 255 [] [0x08]).pc.toNat < (at8 255 [] [0x08]).ramSize ∧
    8 ≤ ((at8 255 [] [0x08]).memRead (at8 255 [] [0x08]).pc.toNat).toNat ∧ Config.wf ⟨1, 1⟩ = true := by decide
theorem witness_OperandOutsideRamFaults :
    (at8 254 [] [0x01, 0x00]).run = .running ∧ (at8 254 [] [0x01, 0x00]).pc.toNat < 256 ∧
    ((at8 254 [] [0x01, 0x00]).memRead 254).toNat < 8 ∧
    256 ≤ (254 : Nat) + operandCount ((at8 254 [] [0x01, 0x00]).memRead 254).toNat := by decide
theorem witness_OperandOutsideRamFaults_exit : (at8 255 [] [0x00]).memRead 255 = 0x00 ∧ (at8 255 [] [0x00]).run = .running := by
  decide
theorem witness_InvalidIndexFaultsBeforeAnyWrite :
    State.reset.nreg ≤ (8 : Byte).toNat ∧ (7 : Byte).toNat < State.reset.nreg := by decide
theorem witness_ExitHalts : RunsAt (at8 255 [] [0x00]) [0x00] := ⟨rfl, by decide, by decide⟩
/-- The hypotheses of StoreWritesTheImmediate, LoadWritesTheImmediate, AddWritesTheSum, SubWritesTheDifference,
IfFallsThrough and DprAppendsOneEvent at the highest valid index, with both clauses of GoesOnAt at the boundary. -/
theorem witness_valid_register :
    (7 : Byte).toNat < storeAtEnd.nreg ∧ storeAtEnd.ramSize ≤ storeAtEnd.pc.toNat + 3 ∧
    (at8 252 [] []).pc.toNat + 3 < (at8 252 [] []).ramSize := by decide
theorem witness_EqualOperandsReadTheOldValueTwice : (7 : Byte).toNat < (at8 0 [77] []).nreg := by decide
theorem witness_SelfJumpNeverEnds : RunsAt selfLoop [0x06, 0x00] ∧ (0x00 : Byte).toNat = selfLoop.pc.toNat :=
  ⟨⟨rfl, by decide, by decide⟩, by decide⟩
theorem witness_RegistersReadAndWrittenAreTheTables :
    (nextOf (exec (.store 7 1) State.reset)).isSome = true ∧ (0 : Byte) ∉ (Instr.store 7 1).writes ∧
    (0 : Byte) ∉ (Instr.store 7 1).reads ∧ (7 : Byte) ∉ (Instr.store 7 1).reads ∧ (7 : Byte) ∈ (Instr.store 7 1).writes ∧
    Instr.wf State.reset.nreg (.store 7 1) = true ∧ (7 : Byte).toNat < State.reset.nreg := by decide
/-- An ADD of valid registers with d and s apart, and a value that neither holds. -/
theorem witness_RegistersReadAndWrittenAreTheTables_positive :
    (7 : Byte).toNat < storeAtEnd.nreg ∧ (0 : Byte).toNat < storeAtEnd.nreg ∧ (7 : Byte) ≠ 0 ∧
    (1 : Byte) ≠ storeAtEnd.reg 7 ∧ (1 : Byte) ≠ storeAtEnd.reg 0 := by decide
theorem witness_OnlyFetchReadsRam :
    storeAtEnd.run = .running ∧ storeAtEnd.pc.toNat < storeAtEnd.ramSize ∧ storeAtEnd.pc.toNat = 253 ∧
    ∀ k, k ≤ operandCount (storeAtEnd.memRead 253).toNat → 253 + k < 256 →
      Memory.read (Memory.write storeAtEnd.mem 252 0xFF) (253 + k) = storeAtEnd.memRead (253 + k) := by
  refine ⟨by decide, by decide, by decide, fun k _ _ => ?_⟩
  exact Memory.read_write_other 0xFF (by omega)
theorem witness_DebugOutputGrowsByDprOnly :
    (stepped (at8 8 [0, 42] [0x07, 0x01])).map (fun t => t.debugOut) = some [⟨1, 42⟩] := by decide
theorem witness_StepRaisesTheFirstFault :
    storeAtEnd.run = .running ∧ storeAtEnd.pc.toNat < storeAtEnd.ramSize ∧ storeAtEnd.fault = none ∧
    firstFault storeAtEnd = some (.outOfBounds .pcAdvance 256) ∧
    firstFault (at8 0 [] [0x03, 0x07, 0x08]) = some (.invalidRegister 8) ∧ firstFault (at8 252 [] [0x01, 0x07]) = none := by
  decide
theorem witness_FaultsArePrecise :
    (stepped storeAtEnd).map (fun t => t.run) = some .faulted ∧
    (stepped (at8 0 [] [0x01, 0x08])).map (fun t => t.run) = some .faulted := by decide
theorem reset_inv : State.reset.Inv := ⟨by decide, by decide, by decide, by decide, by decide⟩
/-- The hypotheses of PcFollowsTheTable and StepKeepsTheInvariant on a step that advances out of RAM. -/
theorem witness_invariant_and_step : storeAtEnd.Inv ∧ (stepped storeAtEnd).isSome = true :=
  ⟨⟨by decide, by decide, by decide, by decide, by decide⟩, by decide⟩
theorem witness_OnlyExitHalts :
    (stepped State.reset).map (fun t => t.run) = some .halted ∧ State.reset.memRead State.reset.pc.toNat = 0x00 ∧
    (stepped selfLoop).map (fun t => t.run) = some .running := by decide
theorem witness_TerminalStatesAreLeftByResetOnly :
    State.reset.halt.run ≠ .running ∧ (State.reset.raise (.unknownInstruction 0xFF)).run ≠ .running ∧
    (Command.reset []).apply State.reset.halt ≠ State.reset.halt := by decide
theorem witness_NothingSurvivesAReset :
    (at8 9 [1, 2] [0x01]).config = State.reset.config ∧ at8 9 [1, 2] [0x01] ≠ State.reset := by decide
theorem witness_ImageIsLoadedFromOffsetZero :
    255 < Config.test.ramSize ∧ (⟨1, 3⟩ : Config).ramSize ≤ [(1 : Byte), 2, 3].length := by decide
/-- The hypothesis of EmptyImageHaltsAtOnce, ImageResetHasTheInvariant, ReachedStatesGoOnOrHaveEnded and
UnknownOpcodeFaults on the configuration, at both ends of its ranges. -/
theorem witness_config : Config.wf ⟨1, 1⟩ = true ∧ Config.wf ⟨256, 2 ^ 32 - 1⟩ = true := by decide
/-- The hypotheses of StepKeepsEqualControl. -/
theorem witness_StepKeepsEqualControl :
    SameControl selfLoop (at8 0 [9] [0x06, 0x00]) ∧ (stepped selfLoop).isSome = true ∧ at8 0 [9] [0x06, 0x00] ≠ selfLoop :=
  ⟨⟨by decide, by decide, by decide, by decide, by decide, by decide⟩, by decide, by decide⟩
/-- One step of the self loop, which comes back to itself. -/
theorem selfLoop_steps : StepsIn 1 selfLoop selfLoop :=
  ⟨selfLoop, nextOf_eq_some (o := step selfLoop) (by decide), rfl⟩
/-- The hypothesis of RunsNeverChangeRamOrSizes. -/
theorem witness_Reaches : Reaches selfLoop selfLoop := ⟨1, selfLoop_steps⟩
theorem witness_ReachedStatesGoOnOrHaveEnded : Reaches (State.ofImage Config.test []) State.reset := ⟨0, rfl⟩
theorem witness_ControlFlowIgnoresData :
    (at8 0 [9] [0x06, 0x00]).pc = selfLoop.pc ∧ (at8 0 [9] [0x06, 0x00]).mem = selfLoop.mem ∧
    (at8 0 [9] [0x06, 0x00]).ramSize = selfLoop.ramSize ∧ (at8 0 [9] [0x06, 0x00]).nreg = selfLoop.nreg ∧
    (at8 0 [9] [0x06, 0x00]).run = selfLoop.run ∧ (at8 0 [9] [0x06, 0x00]).fault = selfLoop.fault ∧
    at8 0 [9] [0x06, 0x00] ≠ selfLoop := by decide
theorem witness_RevisitedAddressNeverEnds : StepsIn (0 + 1) selfLoop selfLoop ∧ selfLoop.run = .running :=
  ⟨selfLoop_steps, rfl⟩
theorem witness_RunsEndWithinRamSizeStepsOrNever : selfLoop.Inv ∧ selfLoop.run = .running :=
  ⟨⟨by decide, by decide, by decide, by decide, by decide⟩, rfl⟩
/-- The other case of RunsEndWithinRamSizeStepsOrNever: from State.reset the run ends after one step. -/
theorem witness_RunsEndWithinRamSizeStepsOrNever_ends :
    State.reset.Inv ∧ State.reset.run = .running ∧ 1 ≤ State.reset.ramSize ∧
    StepsIn 1 State.reset State.reset.halt ∧ State.reset.halt.run ≠ .running :=
  ⟨reset_inv, rfl, by decide, ⟨_, nextOf_eq_some (o := step State.reset) (by decide), rfl⟩, by decide⟩
theorem witness_ImageIsTheBytesOfTheLines :
    ∃ image, assemble 4 lower "JMP end\nend:\nEXIT".toList = .ok image := ⟨[0x06, 0x00], by decide +kernel⟩
theorem witness_LabelFreeTextAssemblesToItsEncoding :
    [Instr.store 0 250, .add 0 0 10, .exit].map sourceLine? =
      ["STORE R0, 250".toList, "ADD R0, R0, 10".toList, "EXIT".toList].map some := by decide
/-- Another spelling: lower-case r, a tab, an empty line, leading zeros, no comma, no final newline. -/
theorem witness_LabelFreeTextAssemblesToItsEncoding_any_spelling :
    (linesOf lower "\n  STORE r007\t0250\n\nEXIT".toList).map AsmLine.toInstr? =
      [Instr.store 7 250, .exit].map some := by decide +kernel
theorem witness_WrongOperandCountNamesItsLine :
    assemble 4 lower "EXIT\n\nDPR\nEXIT".toList = .error (.operandCount 3) ∧
    mnemonicOf? "DPR".toList = some .dpr ∧ ([] : List (List Char)).length ≠ asmOperandCount .dpr := by decide +kernel

end Sys2Proof.Machine.Tests
end

section
/-! PROOFS. The invariant: it holds after every reset and every step keeps it. -/

namespace Sys2Proof.Machine

/-! ## What the invariant says and what it depends on -/

/-- A Running state with the invariant carries no fault record (R34). -/
theorem State.Inv.fault_eq_none {s : State} (h : s.Inv) (hrun : s.run = .running) : s.fault = none := by
  obtain ⟨-, -, hfault, -, -⟩ := h
  simpa [hrun] using hfault

/-- The invariant gives RAM_SIZE its upper bound (R9), so that an address up to RAM_SIZE fits in pc. -/
theorem State.Inv.ramSize_lt {s : State} (h : s.Inv) : s.ramSize < 2 ^ 32 := by
  obtain ⟨hconfig, -, -, -, -⟩ := h
  obtain ⟨-, -, -, hsize⟩ := wf_config.mp hconfig
  have hsize : s.ramSize ≤ 2 ^ 32 - 1 := hsize
  omega

/-- A change that keeps the parameters and RAM keeps the invariant if what it does to the record, pc and the debug
output is allowed. -/
theorem State.Inv.of_frame {s t : State} (h : s.Inv) (hnreg : t.nreg = s.nreg) (hsize : t.ramSize = s.ramSize)
    (hmem : t.mem = s.mem) (hfault : t.run = .faulted ↔ t.fault.isSome = true) (hrecord : t.recordOk = true)
    (hdebug : ∀ e ∈ t.debugOut, regIndexOk s.nreg e.index = true) : t.Inv := by
  obtain ⟨hconfig, hmemOk, -, -, -⟩ := h
  refine ⟨?_, ?_, hfault, hrecord, ?_⟩
  · rwa [State.config, hnreg, hsize]
  · rwa [State.memOk, hmem, hsize]
  · rwa [hnreg, List.all_eq_true]

/-- The debug events of a state with the invariant name registers (R160). -/
theorem State.Inv.debug_ok {s : State} (h : s.Inv) : ∀ e ∈ s.debugOut, regIndexOk s.nreg e.index = true := by
  obtain ⟨-, -, -, -, hdebug⟩ := h
  exact List.all_eq_true.mp hdebug

/-! ## When the record after each move is allowed -/

theorem recordOk_of_fault_none {s : State} (h : s.fault = none) : s.recordOk = true ↔ s.pc.toNat < s.ramSize := by
  simp [State.recordOk, h]

theorem recordOk_of_unknownInstruction {s : State} {b0 : Byte} {a : Addr}
    (h : s.fault = some ⟨.unknownInstruction b0, a⟩) :
    s.recordOk = true ↔ 8 ≤ b0.toNat ∧ a = s.pc ∧ s.pc.toNat < s.ramSize := by
  simp [State.recordOk, h, and_assoc]

theorem recordOk_of_invalidRegister {s : State} {i : Byte} {a : Addr}
    (h : s.fault = some ⟨.invalidRegister i, a⟩) :
    s.recordOk = true ↔ s.nreg ≤ i.toNat ∧ a = s.pc ∧ s.pc.toNat < s.ramSize := by
  simp [State.recordOk, h, and_assoc]

theorem recordOk_of_operandFetch {s : State} {b : Nat} {a : Addr}
    (h : s.fault = some ⟨.outOfBounds .operandFetch b, a⟩) :
    s.recordOk = true ↔ b = s.ramSize ∧ a = s.pc ∧ s.pc.toNat < s.ramSize := by
  simp [State.recordOk, h, and_assoc]

theorem recordOk_of_pcAdvance {s : State} {b : Nat} {a : Addr} (h : s.fault = some ⟨.outOfBounds .pcAdvance b, a⟩) :
    s.recordOk = true ↔ b = s.pc.toNat ∧ s.ramSize ≤ b ∧ a.toNat < s.ramSize := by
  simp [State.recordOk, h, and_assoc]

/-- Where an advance goes on at an address that fits in pc, the record it leaves is allowed: none in RAM, and
outside RAM the PcAdvance fault of the instruction that it left (R107, R176). -/
theorem recordOk_advanceTo {s : State} {n : Nat} (hfault : s.fault = none) (hpc : s.pc.toNat < s.ramSize)
    (hn : n < 2 ^ 32) : (s.advanceTo n).recordOk = true := by
  have hnew : (s.advanceTo n).pc.toNat = n := by simpa using hn
  rcases Nat.lt_or_ge n s.ramSize with hlt | hle
  · refine (recordOk_of_fault_none (by simp [advanceTo_fault, hlt, hfault])).mpr ?_
    rwa [hnew, advanceTo_ramSize]
  · have hrecord : (s.advanceTo n).fault = some ⟨.outOfBounds .pcAdvance n, s.pc⟩ := by
      simp [advanceTo_fault, Nat.not_lt.mpr hle]
    refine (recordOk_of_pcAdvance hrecord).mpr ⟨hnew.symm, ?_, ?_⟩
    · rwa [advanceTo_ramSize]
    · rwa [advanceTo_ramSize]

/-! ## The moves of a step -/

section Moves
variable {s : State} (h : s.Inv)
include h

/-- Raising a fault keeps the invariant if its record is allowed. -/
theorem inv_raise {c : FaultCause} (hrecord : (s.raise c).recordOk = true) : (s.raise c).Inv :=
  h.of_frame rfl rfl rfl (by simp) hrecord h.debug_ok

/-- An instruction with valid indices appends only debug events that name registers. -/
theorem debug_ok_effectOf {i : Instr} (hbad : firstBad i s = none) :
    ∀ e ∈ (effectOf i s).debugOut, regIndexOk s.nreg e.index = true := by
  cases i with
  | dpr r =>
    have hr : r.toNat < s.nreg := by simpa [firstBad, Instr.regOperands] using hbad
    intro e he
    rcases List.mem_append.mp he with he | he
    · exact h.debug_ok e he
    · obtain rfl := List.mem_singleton.mp he
      exact decide_eq_true hr
  | exit | store | load | add | sub | ifImm | jmp => exact h.debug_ok

variable (henabled : s.stepEnabled = true)
include henabled

theorem inv_halt : s.halt.Inv := by
  obtain ⟨hrun, hpc⟩ := stepEnabled_iff.mp henabled
  have hnone : s.fault = none := h.fault_eq_none hrun
  refine h.of_frame rfl rfl rfl ?_ ((recordOk_of_fault_none hnone).mpr hpc) h.debug_ok
  simp [hnone]

/-- The write of an instruction with valid indices and its advance to an address that fits in pc. -/
theorem inv_effectOf_advanceTo {i : Instr} {n : Nat} (hbad : firstBad i s = none) (hn : n < 2 ^ 32) :
    ((effectOf i s).advanceTo n).Inv := by
  obtain ⟨hrun, hpc⟩ := stepEnabled_iff.mp henabled
  have hnone : s.fault = none := h.fault_eq_none hrun
  refine h.of_frame (by simp) (by simp) (by simp) ?_ (recordOk_advanceTo ?_ ?_ hn) ?_
  · rw [advanceTo_run, advanceTo_fault]
    split <;> simp [hrun, hnone]
  · simpa using hnone
  · simpa using hpc
  · simpa using debug_ok_effectOf h hbad

end Moves

/-- Where an instruction goes on: at most RAM_SIZE for one whose bytes lie in RAM, a byte for JMP. -/
theorem goesOnTo_le {i : Instr} {s : State} {n : Nat} (hbytes : s.pc.toNat + i.opcode.noper < s.ramSize)
    (hn : goesOnTo i s = some n) : n ≤ s.ramSize ∨ n < 256 := by
  cases i with
  | exit => simp [goesOnTo] at hn
  | jmp t =>
    obtain rfl := Option.some.inj hn
    exact .inr t.isLt
  | store | load | add | sub | ifImm | dpr =>
    obtain rfl := Option.some.inj hn
    exact .inl hbytes

/-- An instruction whose bytes lie in RAM keeps the invariant where a step is enabled. -/
theorem inv_exec {i : Instr} {s t : State} (h : s.Inv) (henabled : s.stepEnabled = true)
    (hbytes : s.pc.toNat + i.opcode.noper < s.ramSize) (ht : exec i s = .next t) : t.Inv := by
  obtain ⟨-, hpc⟩ := stepEnabled_iff.mp henabled
  rcases exec_cases i s with ⟨j, hbad, he⟩ | ⟨-, -, -, he⟩ | ⟨n, hbad, hn, -, he⟩ <;>
    obtain rfl := Host.Outcome.next.inj (he.symm.trans ht)
  · have hj : s.nreg ≤ j.toNat := by simpa using List.find?_some hbad
    exact inv_raise h ((recordOk_of_invalidRegister rfl).mpr ⟨hj, rfl, hpc⟩)
  · exact inv_halt h henabled
  · have hle := goesOnTo_le hbytes hn
    have hsize := h.ramSize_lt
    exact inv_effectOf_advanceTo h henabled hbad (by omega)

/-! ## The obligations -/

/-- Settles O38, by the cases of a step: a fault of the fetch, or the instruction at pc. -/
theorem stepKeepsTheInvariant : Obligations.StepKeepsTheInvariant := by
  intro s t h ht
  have henabled := stepEnabled_of_next ht
  obtain ⟨-, hpc⟩ := stepEnabled_iff.mp henabled
  rcases step_cases henabled with ⟨h8, hs⟩ | ⟨op, -, ⟨-, hs⟩ | ⟨hbytes, hs⟩⟩
  · obtain rfl := Host.Outcome.next.inj (hs.symm.trans ht)
    exact inv_raise h ((recordOk_of_unknownInstruction rfl).mpr ⟨h8, rfl, hpc⟩)
  · obtain rfl := Host.Outcome.next.inj (hs.symm.trans ht)
    exact inv_raise h ((recordOk_of_operandFetch rfl).mpr ⟨rfl, rfl, hpc⟩)
  · exact inv_exec h henabled (by simpa using hbytes) (hs.symm.trans ht)

/-- The reset loader leaves RAM in canonical form and inside RAM_SIZE. -/
theorem memOk_ofImage (c : Config) (image : List Byte) : (State.ofImage c image).memOk = true := by
  simp only [State.memOk, Bool.and_eq_true, List.all_eq_true, decide_eq_true_eq, ofImage_ramSize]
  exact ⟨wf_memWriteBytes _ _ _ rfl, mem_memWriteBytes_lt _ _ _ (by simp)⟩

/-- Settles O37: the parameters are the configuration's, RAM is what the reset loader leaves, pc is 0, and there is
no record and no debug event. -/
theorem imageResetHasTheInvariant : Obligations.ImageResetHasTheInvariant := by
  intro c image hc
  obtain ⟨-, -, hsize, -⟩ := wf_config.mp hc
  have hpc : (0 : Addr).toNat < c.ramSize := hsize
  refine ⟨?_, memOk_ofImage c image, ?_, (recordOk_of_fault_none (ofImage_fault c image)).mpr ?_, ?_⟩
  · simpa [State.config] using hc
  · simp
  · simpa using hpc
  · simp

end Sys2Proof.Machine
end

section
/-! PROOFS. Frames and runs: what no instruction and no step changes, what a run inherits from its steps, when a step
has a next state, and the shape of a proof that an instruction or a step does not read a field. -/

namespace Sys2Proof.Machine

/-! ## What a step leaves alone -/

/-- No instruction changes RAM, RAM_SIZE or NREG, whatever way it ends (R23, R43). -/
theorem exec_keeps_ram_and_sizes {i : Instr} {s t : State} (h : exec i s = .next t) :
    t.mem = s.mem ∧ t.ramSize = s.ramSize ∧ t.nreg = s.nreg := by
  rcases exec_cases i s with ⟨j, -, he⟩ | ⟨-, -, -, he⟩ | ⟨n, -, -, -, he⟩ <;>
    obtain rfl := Host.Outcome.next.inj (he.symm.trans h)
  · exact ⟨rfl, rfl, rfl⟩
  · exact ⟨rfl, rfl, rfl⟩
  · simp

/-- No step changes RAM, RAM_SIZE or NREG. -/
theorem step_keeps_ram_and_sizes {s t : State} (h : step s = .next t) :
    t.mem = s.mem ∧ t.ramSize = s.ramSize ∧ t.nreg = s.nreg := by
  rcases step_cases (stepEnabled_of_next h) with ⟨-, hs⟩ | ⟨op, -, ⟨-, hs⟩ | ⟨-, hs⟩⟩
  · obtain rfl := Host.Outcome.next.inj (hs.symm.trans h)
    exact ⟨rfl, rfl, rfl⟩
  · obtain rfl := Host.Outcome.next.inj (hs.symm.trans h)
    exact ⟨rfl, rfl, rfl⟩
  · exact exec_keeps_ram_and_sizes (hs.symm.trans h)

/-! ## Runs -/

/-- What every step keeps holds of every state that is reached from one where it holds. -/
theorem Reaches.induction {P : State → Prop} (hstep : ∀ s t, P s → step s = .next t → P t) {s t : State}
    (h : Reaches s t) (hs : P s) : P t := by
  obtain ⟨k, hk⟩ := h
  induction k generalizing s with
  | zero => exact hk ▸ hs
  | succ k ih =>
    obtain ⟨u, hsu, hut⟩ := hk
    exact ih (hstep s u hs hsu) hut

/-- Every state that a run from reset reaches has the invariant. -/
theorem inv_of_reaches_ofImage {c : Config} {image : List Byte} {t : State} (hc : c.wf = true)
    (h : Reaches (State.ofImage c image) t) : t.Inv :=
  h.induction stepKeepsTheInvariant (imageResetHasTheInvariant c image hc)

/-! ## When a step has a next state -/

/-- Every instruction has a next state: `exec` neither stops nor refuses. -/
theorem exists_exec_eq_next (i : Instr) (s : State) : ∃ t, exec i s = .next t := ⟨_, exec_eq i s⟩

theorem exists_step_eq_next {s : State} (h : s.stepEnabled = true) : ∃ t, step s = .next t := by
  rcases step_cases h with ⟨-, hs⟩ | ⟨op, -, ⟨-, hs⟩ | ⟨-, hs⟩⟩
  · exact ⟨_, hs⟩
  · exact ⟨_, hs⟩
  · rw [hs]
    exact exists_exec_eq_next _ s

theorem step_of_run_ne_running {s : State} (h : s.run ≠ .running) : step s = .fault .noStepEnabled := by
  have hn : ¬ s.stepEnabled = true := fun he => h (stepEnabled_iff.mp he).1
  rw [step, if_neg hn, State.noStep]
  cases hrun : s.run with
  | running => exact absurd hrun h
  | halted => rfl
  | faulted => rfl

/-- A Running state with the invariant has pc in RAM (R28), so a step is enabled. -/
theorem State.Inv.stepEnabled {s : State} (h : s.Inv) (hrun : s.run = .running) : s.stepEnabled = true := by
  have hnone : s.fault = none := h.fault_eq_none hrun
  obtain ⟨-, -, -, hrecord, -⟩ := h
  exact stepEnabled_iff.mpr ⟨hrun, (recordOk_of_fault_none hnone).mp hrecord⟩

/-! ## Changing a state before or after a step

`s'` is `s` after a change that the instruction or the step does not see, and `f` makes that change to what comes
after `s`. -/

section Change
variable {f : State → State} {s s' : State}

/-- A change that each of the three ways to end carries along, the instruction carries along. -/
theorem exec_eq_mapNext {i : Instr} (hpc : s'.pc = s.pc) (hnreg : s'.nreg = s.nreg)
    (hraise : ∀ c, s'.raise c = f (s.raise c)) (hhalt : s'.halt = f s.halt)
    (hadvance : ∀ n, (effectOf i s').advanceTo n = f ((effectOf i s).advanceTo n)) :
    exec i s' = mapNext f (exec i s) := by
  have hbad : firstBad i s' = firstBad i s := by simp [firstBad, hnreg]
  have hgo : goesOnTo i s' = goesOnTo i s := by cases i <;> simp [goesOnTo, hpc]
  rw [exec_eq, exec_eq, hbad, hgo]
  cases firstBad i s with
  | some j => exact congrArg _ (hraise _)
  | none =>
    cases goesOnTo i s with
    | none => exact congrArg _ hhalt
    | some n => exact congrArg _ (hadvance n)

/-- A change that the fetch does not see and every instruction carries along, the step carries along. -/
theorem step_eq_mapNext (hpc : s'.pc = s.pc) (hsize : s'.ramSize = s.ramSize) (hrun : s'.run = s.run)
    (hfetch : s'.fetchInstr = s.fetchInstr) (hraise : ∀ c, s'.raise c = f (s.raise c))
    (hexec : ∀ i, exec i s' = mapNext f (exec i s)) : step s' = mapNext f (step s) := by
  have henabled : s'.stepEnabled = s.stepEnabled := by simp [State.stepEnabled, hpc, hsize, hrun]
  rw [step, step, henabled, hfetch]
  split
  · cases s.fetchInstr with
    | ok i => exact hexec i
    | error c => exact congrArg _ (hraise c)
  · rw [State.noStep, State.noStep, hrun]
    cases s.run <;> rfl

end Change

end Sys2Proof.Machine
end

section
/-! PROOFS. The state of 10_state.md: the debug output, runs, reset, and the registers of R22's table. -/

namespace Sys2Proof.Machine

/-! ## The debug output -/

/-- Put `d` in place of the first `n` debug events. -/
def State.rebaseDebug (n : Nat) (d : List DebugEvent) (t : State) : State :=
  { t with debugOut := d ++ t.debugOut.drop n }

/-- Where the debug output is still the `n` events, all of it is replaced. -/
theorem setDebug_eq_rebaseDebug {s : State} {n : Nat} (d : List DebugEvent) (h : s.debugOut.length = n) :
    { s with debugOut := d } = s.rebaseDebug n d := by
  simp [State.rebaseDebug, ← h]

/-- An instruction appends the same events to any debug output. -/
theorem effectOf_setDebug (i : Instr) (s : State) (d : List DebugEvent) :
    effectOf i { s with debugOut := d } = (effectOf i s).rebaseDebug s.debugOut.length d := by
  cases i with
  | dpr r => simp [effectOf, State.emit, State.reg, State.rebaseDebug]
  | exit | ifImm | jmp => exact setDebug_eq_rebaseDebug d rfl
  | store r | load r | add r | sub r => exact setDebug_eq_rebaseDebug (s := s.writeReg r _) d rfl

theorem advanceTo_rebaseDebug (s : State) (n k : Nat) (d : List DebugEvent) :
    (s.rebaseDebug k d).advanceTo n = (s.advanceTo n).rebaseDebug k d := by
  simp [State.rebaseDebug, advanceTo_setDebug]

theorem exec_setDebug (i : Instr) (s : State) (d : List DebugEvent) :
    exec i { s with debugOut := d } = mapNext (State.rebaseDebug s.debugOut.length d) (exec i s) :=
  exec_eq_mapNext rfl rfl (fun c => setDebug_eq_rebaseDebug (s := s.raise c) d rfl)
    (setDebug_eq_rebaseDebug (s := s.halt) d rfl)
    (fun n => by rw [effectOf_setDebug, advanceTo_rebaseDebug])

/-- Settles O26: the fetch does not see the debug output, and an instruction only appends to it. -/
theorem debugOutputIsNeverReadBack : Obligations.DebugOutputIsNeverReadBack := fun s d =>
  step_eq_mapNext (f := State.rebaseDebug s.debugOut.length d) rfl rfl rfl rfl
    (fun c => setDebug_eq_rebaseDebug (s := s.raise c) d rfl) (fun i => exec_setDebug i s d)

/-! ## Runs and reset -/

/-- Settles O23, by induction on the steps of the run. -/
theorem runsNeverChangeRamOrSizes : Obligations.RunsNeverChangeRamOrSizes := by
  intro s t h
  refine h.induction (P := fun u => u.mem = s.mem ∧ u.ramSize = s.ramSize ∧ u.nreg = s.nreg) ?_ ⟨rfl, rfl, rfl⟩
  rintro u v ⟨hmem, hsize, hnreg⟩ huv
  obtain ⟨hmem', hsize', hnreg'⟩ := step_keeps_ram_and_sizes huv
  exact ⟨hmem'.trans hmem, hsize'.trans hsize, hnreg'.trans hnreg⟩

/-- A register file of zeroes reads 0 at every index. -/
theorem reg_of_regs_replicate {s : State} {n : Nat} (h : s.regs = List.replicate n 0) (i : Byte) : s.reg i = 0 := by
  rw [State.reg, h]
  by_cases hi : i.toNat < n <;> simp [hi]

/-- Settles O33: the reset loader writes RAM alone, over a state with NREG zero registers and pc 0. -/
theorem registersAndPcAreZeroAfterReset : Obligations.RegistersAndPcAreZeroAfterReset := fun c image =>
  ⟨ofImage_nreg c image, reg_of_regs_replicate (ofImage_regs c image), ofImage_pc c image⟩

/-- Settles O39: a reached state has the invariant, which puts pc of a Running state in RAM, where every step has a
next state; in Halted and Faulted no step is enabled. -/
theorem reachedStatesGoOnOrHaveEnded : Obligations.ReachedStatesGoOnOrHaveEnded := by
  intro c image t hc h
  have hinv := inv_of_reaches_ofImage hc h
  by_cases hrun : t.run = .running
  · exact .inl ⟨hrun, exists_step_eq_next (hinv.stepEnabled hrun)⟩
  · exact .inr ⟨hrun, step_of_run_ne_running hrun⟩

/-! ## The registers an instruction writes -/

theorem wf_instr_iff {n : Nat} {i : Instr} : i.wf n = true ↔ ∀ j ∈ i.regOperands, j.toNat < n := by
  simp [Instr.wf, regIndexOk]

/-- The write of an instruction leaves every register outside its row's writes alone. -/
theorem reg_effectOf {i : Instr} {j : Byte} (s : State) (h : j ∉ i.writes) : (effectOf i s).reg j = s.reg j := by
  cases i with
  | exit | ifImm | jmp | dpr => rfl
  | store r | load r | add r | sub r => exact reg_writeReg_other s r j _ (by simpa [Instr.writes] using h)

theorem exec_reg_of_notMem_writes {i : Instr} {s t : State} {j : Byte} (ht : exec i s = .next t)
    (h : j ∉ i.writes) : t.reg j = s.reg j := by
  rcases exec_cases i s with ⟨k, -, he⟩ | ⟨-, -, -, he⟩ | ⟨n, -, -, -, he⟩ <;>
    obtain rfl := Host.Outcome.next.inj (he.symm.trans ht)
  · rfl
  · rfl
  · exact (reg_of_regs (advanceTo_regs _ _) j).trans (reg_effectOf s h)

/-- An instruction with valid indices whose write is `v` to register `d` leaves `v` there. -/
theorem exec_reg_of_effectOf {i : Instr} {s : State} {n : Nat} {d v : Byte} (hwf : i.wf s.nreg = true)
    (hgo : goesOnTo i s = some n) (heffect : effectOf i s = s.writeReg d v) (hd : d.toNat < s.nreg) :
    ∃ t, exec i s = .next t ∧ t.reg d = v :=
  ⟨_, exec_of_wf hwf hgo, by rw [heffect]; exact reg_write_advanceTo v n hd⟩

theorem exec_store_reg {s : State} {r : Byte} (imm : Byte) (hr : r.toNat < s.nreg) :
    ∃ t, exec (.store r imm) s = .next t ∧ t.reg r = imm :=
  exec_reg_of_effectOf (wf_instr_iff.mpr (by simpa [Instr.regOperands])) rfl rfl hr

theorem exec_load_reg {s : State} {r : Byte} (imm : Byte) (hr : r.toNat < s.nreg) :
    ∃ t, exec (.load r imm) s = .next t ∧ t.reg r = imm :=
  exec_reg_of_effectOf (wf_instr_iff.mpr (by simpa [Instr.regOperands])) rfl rfl hr

theorem exec_add_reg {s : State} {d src : Byte} (imm : Byte) (hd : d.toNat < s.nreg) (hsrc : src.toNat < s.nreg) :
    ∃ t, exec (.add d src imm) s = .next t ∧ t.reg d = addResult (s.reg d) (s.reg src) imm :=
  exec_reg_of_effectOf (wf_instr_iff.mpr (by simp [Instr.regOperands, hd, hsrc])) rfl rfl hd

theorem exec_sub_reg {s : State} {d src : Byte} (imm : Byte) (hd : d.toNat < s.nreg) (hsrc : src.toNat < s.nreg) :
    ∃ t, exec (.sub d src imm) s = .next t ∧ t.reg d = subResult (s.reg d) (s.reg src) imm :=
  exec_reg_of_effectOf (wf_instr_iff.mpr (by simp [Instr.regOperands, hd, hsrc])) rfl rfl hd

theorem exec_dpr_debugOut {s : State} {r : Byte} (hr : r.toNat < s.nreg) :
    ∃ t, exec (.dpr r) s = .next t ∧ t.debugOut = s.debugOut ++ [⟨r, s.reg r⟩] :=
  ⟨_, exec_of_wf (wf_instr_iff.mpr (by simpa [Instr.regOperands])) rfl, by simp [effectOf]⟩

/-! ## The registers an instruction does not read -/

theorem writeReg_comm (s : State) {i j : Byte} (v w : Byte) (h : i ≠ j) :
    (s.writeReg i v).writeReg j w = (s.writeReg j w).writeReg i v := by
  have hne : i.toNat ≠ j.toNat := fun e => h (BitVec.eq_of_toNat_eq e)
  simp [State.writeReg, List.set_comm _ _ hne]

theorem writeReg_writeReg (s : State) (i v w : Byte) : (s.writeReg i v).writeReg i w = s.writeReg i w := by
  simp [State.writeReg]

/-- A register that an instruction neither reads nor writes keeps its place beside the instruction's write. -/
theorem effectOf_writeReg {i : Instr} {j : Byte} (s : State) (v : Byte) (hr : j ∉ i.reads) (hw : j ∉ i.writes) :
    effectOf i (s.writeReg j v) = (effectOf i s).writeReg j v := by
  cases i with
  | exit | ifImm | jmp => rfl
  | store r imm | load r imm => exact writeReg_comm s v imm (by simpa [Instr.writes] using hw)
  | add d src imm | sub d src imm =>
    obtain ⟨hd, hsrc⟩ : j ≠ d ∧ j ≠ src := by simpa [Instr.reads] using hr
    simp only [effectOf, reg_writeReg_other s j d v hd.symm, reg_writeReg_other s j src v hsrc.symm]
    exact writeReg_comm s v _ hd
  | dpr r =>
    have hne : r ≠ j := fun e => hr (by simp [Instr.reads, e])
    simp only [effectOf, reg_writeReg_other s j r v hne]
    rfl

theorem exec_writeReg {i : Instr} {j : Byte} (s : State) (v : Byte) (hr : j ∉ i.reads) (hw : j ∉ i.writes) :
    exec i (s.writeReg j v) = mapNext (fun t => t.writeReg j v) (exec i s) :=
  exec_eq_mapNext rfl (nreg_writeReg s j v) (raise_writeReg s j v) (halt_writeReg s j v)
    (fun n => by rw [effectOf_writeReg s v hr hw, advanceTo_writeReg])

/-- STORE and LOAD, the instructions that write a register they do not read, overwrite what it held. -/
theorem exec_writeReg_of_overwritten {i : Instr} {s : State} {j : Byte} (v : Byte) (hwf : i.wf s.nreg = true)
    (hr : j ∉ i.reads) (hw : j ∈ i.writes) : exec i (s.writeReg j v) = exec i s := by
  have hwf' : i.wf (s.writeReg j v).nreg = true := by rwa [nreg_writeReg]
  cases i with
  | exit | ifImm | jmp | dpr => exact absurd hw List.not_mem_nil
  | add d src | sub d src =>
    obtain rfl : j = d := by simpa [Instr.writes] using hw
    exact absurd List.mem_cons_self hr
  | store r imm | load r imm =>
    obtain rfl : j = r := by simpa [Instr.writes] using hw
    rw [exec_of_wf hwf' rfl, exec_of_wf hwf rfl]
    simp only [effectOf, writeReg_writeReg, writeReg_pc, Instr.opcode]

/-! ## The registers an instruction reads -/

theorem addResult_eq (a b c : Byte) : addResult a b c = a + b + c := by
  simp [addResult, BitVec.ofNat_add]

theorem subResult_eq (a b c : Byte) : subResult a b c = a - b - c := by
  simp [subResult, Int.sub_eq_add_neg, BitVec.ofInt_add, BitVec.ofInt_neg, BitVec.sub_eq_add_neg]

/-- An operation that is injective in its first and in its second operand tells a change of either register, where
they are apart. -/
theorem op_writeReg_ne {op : Byte → Byte → Byte} (hleft : ∀ a b c, op a c = op b c → a = b)
    (hright : ∀ a b c, op a b = op a c → b = c) {s : State} {d src j v : Byte} (hd : d.toNat < s.nreg)
    (hsrc : src.toNat < s.nreg) (hne : d ≠ src) (hj : j = d ∨ j = src) (hv : v ≠ s.reg j) :
    op ((s.writeReg j v).reg d) ((s.writeReg j v).reg src) ≠ op (s.reg d) (s.reg src) := by
  rcases hj with rfl | rfl
  · rw [reg_writeReg_same s j v hd, reg_writeReg_other s j src v hne.symm]
    exact fun e => hv (hleft _ _ _ e)
  · rw [reg_writeReg_same s j v hsrc, reg_writeReg_other s j d v hne]
    exact fun e => hv (hright _ _ _ e)

/-- An instruction that leaves such an operation of x[d] and x[src] in x[d] shows that it reads both. -/
theorem exec_reads_of_reg {op : Byte → Byte → Byte} {i : Instr} {d src : Byte}
    (hleft : ∀ a b c, op a c = op b c → a = b) (hright : ∀ a b c, op a b = op a c → b = c)
    (hexec : ∀ s : State, d.toNat < s.nreg → src.toNat < s.nreg →
      ∃ t, exec i s = .next t ∧ t.reg d = op (s.reg d) (s.reg src))
    {s : State} {j v : Byte} (hd : d.toNat < s.nreg) (hsrc : src.toNat < s.nreg) (hne : d ≠ src)
    (hj : j = d ∨ j = src) (hv : v ≠ s.reg j) :
    ∃ t t', exec i s = .next t ∧ exec i (s.writeReg j v) = .next t' ∧ t'.reg d ≠ t.reg d := by
  obtain ⟨t, ht, hreg⟩ := hexec s hd hsrc
  obtain ⟨t', ht', hreg'⟩ := hexec (s.writeReg j v) (by rwa [nreg_writeReg]) (by rwa [nreg_writeReg])
  refine ⟨t, t', ht, ht', ?_⟩
  rw [hreg, hreg']
  exact op_writeReg_ne hleft hright hd hsrc hne hj hv

theorem exec_dpr_reads {s : State} {r v : Byte} (hr : r.toNat < s.nreg) (hv : v ≠ s.reg r) :
    ∃ t t', exec (.dpr r) s = .next t ∧ exec (.dpr r) (s.writeReg r v) = .next t' ∧ t'.debugOut ≠ t.debugOut := by
  obtain ⟨t, ht, hout⟩ := exec_dpr_debugOut hr
  obtain ⟨t', ht', hout'⟩ := exec_dpr_debugOut (s := s.writeReg r v) (by simpa)
  refine ⟨t, t', ht, ht', ?_⟩
  rw [hout, hout', reg_writeReg_same s r v hr]
  simpa using hv

/-- Settles O22: the frame of the writes, the two ways of not reading a register, and the effects that show the
writes of STORE and LOAD and the reads of ADD, SUB and DPR. -/
theorem registersReadAndWrittenAreTheTables : Obligations.RegistersReadAndWrittenAreTheTables := by
  refine ⟨fun i s t j => exec_reg_of_notMem_writes, fun i s j v => exec_writeReg s v,
    fun i s j v _ => exec_writeReg_of_overwritten v,
    fun s r imm hr => ⟨exec_store_reg imm hr, exec_load_reg imm hr⟩, ?_, fun s r v => exec_dpr_reads⟩
  rintro s d src imm j v i (rfl | rfl)
  · exact exec_reads_of_reg (op := fun a b => addResult a b imm) (by simp [addResult_eq]) (by simp [addResult_eq])
      fun _ => exec_add_reg imm
  · exact exec_reads_of_reg (op := fun a b => subResult a b imm) (by simp [subResult_eq]) (by simp [subResult_eq])
      fun _ => exec_sub_reg imm

end Sys2Proof.Machine
end

section
/-! PROOFS. The memory of 20_memory.md: which bytes of RAM a fetch reads, and that nothing else reads RAM. -/

namespace Sys2Proof.Machine

/-! ## The bytes a fetch reads -/

/-- With an illegal opcode byte at pc the fetch depends on that byte alone (R71). -/
theorem fetchInstr_of_illegal {s : State} (h : Opcode.ofByte? (s.memRead s.pc.toNat) = none) :
    s.fetchInstr = .error (.unknownInstruction (s.memRead s.pc.toNat)) := by
  simp [State.fetchInstr, h]

/-- With a legal opcode byte at pc the fetch depends on the operand bytes of that opcode, where they lie in RAM. -/
theorem fetchInstr_of_legal {s : State} {op : Opcode} (h : Opcode.ofByte? (s.memRead s.pc.toNat) = some op) :
    s.fetchInstr = if s.pc.toNat + op.noper < s.ramSize then .ok (op.instr fun k => s.memRead (s.pc.toNat + k))
      else .error (.outOfBounds .operandFetch s.ramSize) := by
  simp [State.fetchInstr, h]

/-- The fetch reads the opcode byte and, where it is legal, the operand bytes of its opcode that lie in RAM. -/
theorem fetchInstr_congr {s s' : State} (hpc : s'.pc = s.pc) (hsize : s'.ramSize = s.ramSize)
    (hin : s.pc.toNat < s.ramSize)
    (hread : ∀ k, k ≤ operandCount (s.memRead s.pc.toNat).toNat → s.pc.toNat + k < s.ramSize →
      s'.memRead (s.pc.toNat + k) = s.memRead (s.pc.toNat + k)) :
    s'.fetchInstr = s.fetchInstr := by
  have hopcode : s'.memRead s'.pc.toNat = s.memRead s.pc.toNat := by
    rw [hpc]
    exact hread 0 (Nat.zero_le _) hin
  cases hop : Opcode.ofByte? (s.memRead s.pc.toNat) with
  | none => rw [fetchInstr_of_illegal hop, fetchInstr_of_illegal (hopcode ▸ hop), hopcode]
  | some op =>
    have hcount : operandCount (s.memRead s.pc.toNat).toNat = op.noper := by
      rw [Opcode.toByte_of_ofByte? hop, operandCount_toByte]
    rw [fetchInstr_of_legal hop, fetchInstr_of_legal (hopcode ▸ hop), hpc, hsize]
    split
    · next hbytes =>
      exact congrArg _ (instr_congr op fun k _ hk => hread k (hcount ▸ hk) (by omega))
    · rfl

/-! ## Replacing RAM -/

/-- The write of an instruction does not read RAM. -/
theorem effectOf_setMem (i : Instr) (s : State) (m : Memory) :
    effectOf i { s with mem := m } = { effectOf i s with mem := m } := by
  cases i <;> rfl

/-- No instruction reads RAM as data (R41, R42). -/
theorem exec_setMem (i : Instr) (s : State) (m : Memory) :
    exec i { s with mem := m } = mapNext (fun t => { t with mem := m }) (exec i s) :=
  exec_eq_mapNext rfl rfl (fun _ => rfl) rfl (fun n => by rw [effectOf_setMem, advanceTo_setMem])

/-- Settles O24: no instruction reads RAM, and the fetch of a step reads the bytes of its instruction alone. -/
theorem onlyFetchReadsRam : Obligations.OnlyFetchReadsRam :=
  ⟨exec_setMem, fun s m _ hin hread => step_eq_mapNext (f := fun t => { t with mem := m }) rfl rfl rfl
    (fetchInstr_congr rfl rfl hin hread) (fun _ => rfl) (fun i => exec_setMem i s m)⟩

end Sys2Proof.Machine
end

section
/-! PROOFS. The encoding of 30_encoding.md: decoding answers exactly the encodings, how long they are, and the step at
an opcode byte that is none. -/

namespace Sys2Proof

/-- Decoding reads an encoding back and leaves the bytes after it (R74). -/
theorem decode_encode_append (i : Instr) (rest : List Byte) : decode (encode i ++ rest) = .ok (i, rest) := by
  have hdrop : (i.operandBytes ++ rest).drop i.opcode.noper = rest := List.drop_left' (length_operandBytes i)
  simp only [encode, List.cons_append, decode, Opcode.ofByte?_toByte]
  rw [if_neg (by simp), instr_operandBytes, hdrop]

/-- The operand bytes of an instruction made from a byte list are the bytes that follow its opcode byte. -/
theorem operandBytes_instr_getD {op : Opcode} {tail : List Byte} (b0 : Byte) (h : op.noper ≤ tail.length) :
    (op.instr fun k => (b0 :: tail).getD k 0).operandBytes = tail.take op.noper := by
  rw [operandBytes_instr]
  refine List.ext_getElem (by simpa using h) fun k _ hk => ?_
  have hlt : k < tail.length := by simp only [List.length_take] at hk; omega
  simp [hlt]

/-- The bytes from which decoding answers an instruction are its encoding and the bytes left over. -/
theorem eq_encode_append_of_decode {bs : List Byte} {i : Instr} {rest : List Byte} (h : decode bs = .ok (i, rest)) :
    bs = encode i ++ rest := by
  obtain ⟨op, tail, rfl, hlen, rfl, rfl⟩ := decode_eq_ok h
  rw [encode, opcode_instr, operandBytes_instr_getD _ hlen, List.cons_append, List.take_append_drop]

/-- Settles O1: decoding reads every encoding back, and the bytes it accepts are an encoding and the rest. -/
theorem decodeIsInverseOfEncode : Obligations.DecodeIsInverseOfEncode := fun _ i rest =>
  ⟨eq_encode_append_of_decode, fun h => h ▸ decode_encode_append i rest⟩

/-- What decoding answers begins with its own opcode's byte, and NOPER bytes of the rest are consumed (R60, R73). -/
theorem opcode_and_length_of_decode {b0 : Byte} {tail : List Byte} {i : Instr} {rest : List Byte}
    (h : decode (b0 :: tail) = .ok (i, rest)) :
    b0 = i.opcode.toByte ∧ (b0 :: tail).length = i.opcode.noper + 1 + rest.length := by
  have hbytes := eq_encode_append_of_decode h
  refine ⟨(List.cons.inj hbytes).1, ?_⟩
  rw [hbytes, List.length_append, length_encode]

/-- Settles O3: the opcode byte and the length are the decoded instruction's, and NOPER is R73's table. -/
theorem lengthIsFixedByTheOpcodeByte : Obligations.LengthIsFixedByTheOpcodeByte := by
  intro b0 tail i rest h
  obtain ⟨hb0, hlen⟩ := opcode_and_length_of_decode h
  rw [hlen, hb0]
  cases i.opcode <;> simp [Opcode.toByte, Opcode.noper]

/-- Settles O2: the bytes of each row are the encoding of its instruction, and a byte from 8 on has no opcode. -/
theorem opcodeBytesDecode : Obligations.OpcodeBytesDecode := by
  intro a b c b0 rest
  refine ⟨decode_encode_append .exit rest, decode_encode_append (.store a b) rest,
    decode_encode_append (.load a b) rest, decode_encode_append (.add a b c) rest,
    decode_encode_append (.sub a b c) rest, decode_encode_append (.ifImm a b) rest,
    decode_encode_append (.jmp a) rest, decode_encode_append (.dpr a) rest, fun h => ?_⟩
  simp [decode, Opcode.ofByte?_eq_none.mpr h]

namespace Machine

/-- A step at an illegal opcode byte raises UnknownInstruction with that byte and does nothing else (R102). -/
theorem step_of_illegal {s : State} (henabled : s.stepEnabled = true) (h : 8 ≤ (s.memRead s.pc.toNat).toNat) :
    step s = .next (s.raise (.unknownInstruction (s.memRead s.pc.toNat))) := by
  simp [step, henabled, fetchInstr_of_illegal (Opcode.ofByte?_eq_none.mpr h)]

/-- The first byte of an image is the opcode byte of the first step (R200). -/
theorem memRead_pc_ofImage {c : Config} (hc : c.wf = true) (b0 : Byte) (rest : List Byte) :
    (State.ofImage c (b0 :: rest)).memRead (State.ofImage c (b0 :: rest)).pc.toNat = b0 := by
  obtain ⟨-, -, hsize, -⟩ := wf_config.mp hc
  rw [ofImage_pc]
  exact memRead_ofImage c (b0 :: rest) hsize

/-- Settles O6: the fetch faults on the opcode byte, and after reset that byte is the image's first. -/
theorem unknownOpcodeFaults : Obligations.UnknownOpcodeFaults := by
  refine ⟨fun s hrun hpc h8 => ?_, fun c rest hc => ?_⟩
  · exact ⟨_, step_of_illegal (stepEnabled_iff.mpr ⟨hrun, hpc⟩) h8, rfl, rfl, rfl, rfl, rfl, rfl, rfl⟩
  · have henabled := (imageResetHasTheInvariant c (0xFF :: rest) hc).stepEnabled (ofImage_run _ _)
    have hopcode := memRead_pc_ofImage hc 0xFF rest
    have hstep := step_of_illegal henabled (by rw [hopcode]; decide)
    rw [hopcode] at hstep
    exact ⟨_, hstep, rfl, rfl, reg_of_regs_replicate (ofImage_regs c (0xFF :: rest))⟩

end Machine

end Sys2Proof
end

section
/-! PROOFS. The assembler of 30_encoding.md section 7: the numbers it reads, the errors of a line, what the two passes
answer, and the images of label-free text. -/

namespace Sys2Proof.Machine

/-! ## Decimal tokens -/

/-- The number a token of digits is read as, by its digits from the last one on. -/
theorem foldl_digit_eq_ofDigits (t : List Char) :
    t.foldl (fun n c => 10 * n + (c.toNat - 48)) 0 = Nat.ofDigits 10 (t.reverse.map fun c => c.toNat - 48) := by
  rw [Nat.ofDigits_eq_foldr, List.foldr_map, List.foldr_reverse]
  simp only [Nat.cast_id, Nat.add_comm]

theorem parseDecimal_eq_some {t : List Char} {n : Nat} :
    parseDecimal t = some n ↔
      t ≠ [] ∧ (∀ c ∈ t, c.isDigit = true) ∧ Nat.ofDigits 10 (t.reverse.map fun c => c.toNat - 48) = n := by
  simp only [parseDecimal, Option.ite_none_right_eq_some, Option.some.injEq, List.all_eq_true,
    foldl_digit_eq_ofDigits, and_assoc]

theorem asByte_eq_some {n : Nat} {b : Byte} : asByte n = some b ↔ n = b.toNat := by
  have hb := b.isLt
  simp only [asByte, Option.ite_none_right_eq_some, Option.some.injEq, ← BitVec.toNat_inj, BitVec.toNat_ofNat]
  omega

/-- The tokens that stand for a byte: digits whose value is the byte's. -/
theorem parseDecimal_bind_asByte {t : List Char} {b : Byte} :
    (parseDecimal t).bind asByte = some b ↔
      t ≠ [] ∧ (∀ c ∈ t, c.isDigit = true) ∧ Nat.ofDigits 10 (t.reverse.map fun c => c.toNat - 48) = b.toNat := by
  simp only [Option.bind_eq_some_iff, asByte_eq_some, exists_eq_right, parseDecimal_eq_some]

/-- An immediate token is accepted where its number is a byte (R84). -/
theorem parseImmediate_eq_ok {t : List Char} {b : Byte} :
    parseImmediate t = .ok b ↔ (parseDecimal t).bind asByte = some b := by
  unfold parseImmediate
  cases (parseDecimal t).bind asByte <;> simp

/-- A register token is accepted where it is the letter and a number that is a byte (R83). -/
theorem parseRegister_eq_ok {t : List Char} {b : Byte} :
    parseRegister t = .ok b ↔
      ∃ c ds, t = c :: ds ∧ (c = 'R' ∨ c = 'r') ∧ (parseDecimal ds).bind asByte = some b := by
  cases t with
  | nil => simp [parseRegister]
  | cons c ds =>
    by_cases hc : c = 'R' ∨ c = 'r'
    · cases h : (parseDecimal ds).bind asByte <;> simp [parseRegister, hc, h]
    · simp [parseRegister, hc]

/-- Settles O47: a token is accepted where its digits have a byte's value, read from either end. -/
theorem operandTokensAreReadInDecimal : Obligations.OperandTokensAreReadInDecimal := fun _ _ =>
  ⟨by rw [parseImmediate_eq_ok, parseDecimal_bind_asByte],
   by simp only [parseRegister_eq_ok, parseDecimal_bind_asByte]⟩

/-! ## The errors of a line -/

/-- Parsing fails, if at all, on an operand token (R83, R84). -/
def FailsOnToken {α : Type} (x : Except AsmError α) : Prop :=
  ∀ e, x = .error e → e = .badRegister ∨ e = .badImmediate

theorem failsOnToken_ok {α : Type} (a : α) : FailsOnToken (.ok a) := by simp [FailsOnToken]

theorem failsOnToken_bind {α β : Type} {x : Except AsmError α} {f : α → Except AsmError β} (hx : FailsOnToken x)
    (hf : ∀ a, FailsOnToken (f a)) : FailsOnToken (x >>= f) := by
  cases x with
  | error e => exact fun e' he => hx e' (congrArg Except.error (Except.error.inj he))
  | ok a => exact hf a

theorem failsOnToken_register (t : List Char) : FailsOnToken (parseRegister t) := by
  unfold parseRegister
  split
  · split
    · split <;> simp [FailsOnToken]
    · simp [FailsOnToken]
  · simp [FailsOnToken]

theorem failsOnToken_immediate (t : List Char) : FailsOnToken (parseImmediate t) := by
  unfold parseImmediate
  split <;> simp [FailsOnToken]

/-- The operands of a line that are a register and an immediate token. -/
theorem failsOnToken_register_immediate {α : Type} (r v : List Char) (make : Byte → Byte → α) :
    FailsOnToken (do return make (← parseRegister r) (← parseImmediate v)) :=
  failsOnToken_bind (failsOnToken_register r) fun _ =>
    failsOnToken_bind (failsOnToken_immediate v) fun _ => failsOnToken_ok _

/-- With as many operands as the mnemonic takes, a line fails on an operand token, if at all. -/
theorem failsOnToken_parseOperands (line : Nat) {op : Opcode} {ops : List (List Char)}
    (h : ops.length = asmOperandCount op) : FailsOnToken (parseOperands line op ops) := by
  cases op with
  | exit =>
    obtain rfl := List.length_eq_zero_iff.mp h
    exact failsOnToken_ok _
  | store | load =>
    obtain ⟨r, v, rfl⟩ := List.length_eq_two.mp h
    exact failsOnToken_register_immediate r v _
  | add | sub =>
    obtain ⟨d, s, v, rfl⟩ := List.length_eq_three.mp h
    exact failsOnToken_bind (failsOnToken_register d) fun d => failsOnToken_register_immediate s v _
  | ifImm =>
    obtain ⟨r, v, l, rfl⟩ := List.length_eq_three.mp h
    exact failsOnToken_register_immediate r v fun r v => AsmInstr.ifImm r v l
  | jmp =>
    obtain ⟨l, rfl⟩ := List.length_eq_one_iff.mp h
    exact failsOnToken_ok _
  | dpr =>
    obtain ⟨r, rfl⟩ := List.length_eq_one_iff.mp h
    exact failsOnToken_bind (failsOnToken_register r) fun _ => failsOnToken_ok _

/-- With another number of operands than the mnemonic takes, a line is the count error of its own number (R85). -/
theorem parseOperands_of_length_ne (line : Nat) {op : Opcode} {ops : List (List Char)}
    (h : ops.length ≠ asmOperandCount op) : parseOperands line op ops = .error (.operandCount line) := by
  unfold parseOperands
  split
  case h_9 => rfl  -- the arm of every other operand list
  all_goals exact absurd rfl h

theorem parseOperands_eq_operandCount {line n : Nat} {op : Opcode} {ops : List (List Char)} :
    parseOperands line op ops = .error (.operandCount n) ↔ n = line ∧ ops.length ≠ asmOperandCount op := by
  by_cases h : ops.length = asmOperandCount op
  · have hn : parseOperands line op ops ≠ .error (.operandCount n) := fun he => by
      simpa using failsOnToken_parseOperands line h _ he
    simp [hn, h]
  · simp [parseOperands_of_length_ne line h, h, eq_comm]

/-- A line parses with the count error exactly where it has a known mnemonic and another number of operands than
that mnemonic takes, and the error carries the number of the line (R85). -/
theorem parseTokens_eq_operandCount {line n : Nat} {tokens : List (List Char)} :
    parseTokens line tokens = .error (.operandCount n) ↔
      n = line ∧ ∃ m ops op, tokens = m :: ops ∧ mnemonicOf? m = some op ∧ ops.length ≠ asmOperandCount op := by
  cases tokens with
  | nil => simp [parseTokens]
  | cons m ops =>
    cases hm : mnemonicOf? m with
    | none => simp [parseTokens, hm]
    | some op => simp [parseTokens, hm, parseOperands_eq_operandCount]

/-! ## Pass 1 -/

/-- Pass 1 fails, if at all, on a label declaration (R81, R87). -/
theorem passOne_error {maxLabels counter : Nat} {labels : LabelTable} {lines : List AsmLine} {e : AsmError}
    (h : passOne maxLabels counter labels lines = .error e) : e = .duplicateLabel ∨ e = .tooManyLabels := by
  induction lines generalizing counter labels with
  | nil => simp [passOne] at h
  | cons l lines ih =>
    cases l with
    | instr line tokens => exact ih h
    | label name =>
      simp only [passOne] at h
      split at h
      · exact .inl (Except.error.inj h).symm
      · split at h
        · exact .inr (Except.error.inj h).symm
        · exact ih h

/-- Where no line declares a label, pass 1 answers the table it was given. -/
theorem passOne_of_no_label (maxLabels counter : Nat) (labels : LabelTable) {lines : List AsmLine}
    (h : ∀ name, AsmLine.label name ∉ lines) : passOne maxLabels counter labels lines = .ok labels := by
  induction lines generalizing counter with
  | nil => rfl
  | cons l lines ih =>
    have hrest : ∀ name, AsmLine.label name ∉ lines := fun name hmem => h name (List.mem_cons_of_mem l hmem)
    cases l with
    | label name => exact absurd List.mem_cons_self (h name)
    | instr line tokens => exact ih (counter + 3) hrest

/-! ## Pass 2 -/

section PassTwo
variable {position line : Nat} {labels : LabelTable} {tokens : List (List Char)} {i : AsmInstr} (rest : List AsmLine)

/-- An instruction line that does not parse ends pass 2 with its error (R85, R89). -/
theorem passTwo_of_parse_error {e : AsmError} (hp : parseTokens line tokens = .error e) :
    passTwo position labels (.instr line tokens :: rest) = .error e := by
  simp [passTwo, hp]

/-- A line that names no label emits its bytes before those of the lines after it (R85). -/
theorem passTwo_of_label_eq_none (hp : parseTokens line tokens = .ok i) (hl : i.label? = none) :
    passTwo position labels (.instr line tokens :: rest) =
      (passTwo (position + i.bytes.length) labels rest).map (i.bytes ++ ·) := by
  cases h : passTwo (position + i.bytes.length) labels rest <;> simp [passTwo, hp, hl, h, Except.map]

/-- A line that names a declared label re-registers it and emits its bytes; an undeclared label is fatal (R87, R88). -/
theorem passTwo_of_label_eq_some {l : List Char} (hp : parseTokens line tokens = .ok i) (hl : i.label? = some l) :
    passTwo position labels (.instr line tokens :: rest) =
      if labels.any (fun p => p.1 == l) then
        (passTwo (position + i.bytes.length) (reRegister labels l (position + i.bytes.length)) rest).map (i.bytes ++ ·)
      else .error .unresolvedLabel := by
  by_cases hmem : labels.any (fun p => p.1 == l) = true
  · cases h : passTwo (position + i.bytes.length) (reRegister labels l (position + i.bytes.length)) rest <;>
      simp [passTwo, hp, hl, hmem, h, Except.map]
  · simp [passTwo, hp, hl, hmem]

/-- Everything pass 2 can do at an instruction line: the line's parse error, an unresolved label, or the bytes of the
instruction before those of the lines after it, for some table of labels. -/
theorem passTwo_instr_cases (position line : Nat) (labels : LabelTable) (tokens : List (List Char)) :
    (∃ e, parseTokens line tokens = .error e ∧ passTwo position labels (.instr line tokens :: rest) = .error e) ∨
    passTwo position labels (.instr line tokens :: rest) = .error .unresolvedLabel ∨
    ∃ i labels', parseTokens line tokens = .ok i ∧
      passTwo position labels (.instr line tokens :: rest) =
        (passTwo (position + i.bytes.length) labels' rest).map (i.bytes ++ ·) := by
  cases hp : parseTokens line tokens with
  | error e => exact .inl ⟨e, rfl, passTwo_of_parse_error rest hp⟩
  | ok i =>
    cases hl : i.label? with
    | none => exact .inr (.inr ⟨i, labels, rfl, passTwo_of_label_eq_none rest hp hl⟩)
    | some l =>
      rw [passTwo_of_label_eq_some rest hp hl]
      split
      · exact .inr (.inr ⟨i, _, rfl, rfl⟩)
      · exact .inr (.inl rfl)

end PassTwo

theorem except_map_eq_ok {f : List Byte → List Byte} {x : Except AsmError (List Byte)} {image : List Byte}
    (h : x.map f = .ok image) : ∃ bytes, x = .ok bytes ∧ image = f bytes := by
  cases x with
  | error e => exact nomatch h
  | ok bytes => exact ⟨bytes, rfl, (Except.ok.inj h).symm⟩

theorem except_map_eq_error {f : List Byte → List Byte} {x : Except AsmError (List Byte)} {e : AsmError}
    (h : x.map f = .error e) : x = .error e := by
  cases x with
  | error e' => exact congrArg Except.error (Except.error.inj h)
  | ok bytes => exact nomatch h

/-- How an instruction line parses; none for a label declaration. -/
def AsmLine.parsed? : AsmLine → Option (Except AsmError AsmInstr)
  | .label _ => none
  | .instr line tokens => some (parseTokens line tokens)

/-- An image that pass 2 answers is the bytes of the lines, which all parse. -/
theorem passTwo_eq_ok {position : Nat} {labels : LabelTable} {lines : List AsmLine} {image : List Byte}
    (h : passTwo position labels lines = .ok image) :
    ∃ instrs : List AsmInstr,
      lines.filterMap AsmLine.parsed? = instrs.map Except.ok ∧ image = instrs.flatMap AsmInstr.bytes := by
  induction lines generalizing position labels image with
  | nil => exact ⟨[], rfl, (Except.ok.inj h).symm⟩
  | cons l lines ih =>
    cases l with
    | label name => exact ih h
    | instr line tokens =>
      rcases passTwo_instr_cases lines position line labels tokens with
        ⟨e, -, he⟩ | he | ⟨i, labels', hp, he⟩ <;> rw [he] at h
      · exact nomatch h
      · exact nomatch h
      · obtain ⟨bytes, hbytes, rfl⟩ := except_map_eq_ok h
        obtain ⟨instrs, hinstrs, rfl⟩ := ih hbytes
        exact ⟨i :: instrs, by simp [AsmLine.parsed?, hp, hinstrs], rfl⟩

/-- A count error of pass 2 is that of one of the lines. -/
theorem passTwo_eq_operandCount {position n : Nat} {labels : LabelTable} {lines : List AsmLine}
    (h : passTwo position labels lines = .error (.operandCount n)) :
    ∃ line tokens, AsmLine.instr line tokens ∈ lines ∧ parseTokens line tokens = .error (.operandCount n) := by
  induction lines generalizing position labels with
  | nil => exact nomatch h
  | cons l lines ih =>
    have later {position' : Nat} {labels' : LabelTable}
        (h : passTwo position' labels' lines = .error (.operandCount n)) :
        ∃ line tokens, AsmLine.instr line tokens ∈ l :: lines ∧
          parseTokens line tokens = .error (.operandCount n) := by
      obtain ⟨line, tokens, hmem, hp⟩ := ih h
      exact ⟨line, tokens, List.mem_cons_of_mem l hmem, hp⟩
    cases l with
    | label name => exact later h
    | instr line tokens =>
      rcases passTwo_instr_cases lines position line labels tokens with
        ⟨e, hp, he⟩ | he | ⟨i, labels', -, he⟩ <;> rw [he] at h
      · exact ⟨line, tokens, List.mem_cons_self, hp.trans (congrArg Except.error (Except.error.inj h))⟩
      · exact nomatch h
      · exact later (except_map_eq_error h)

/-! ## Assembly -/

/-- Assembly ends with the error of pass 1, or answers what pass 2 answers (R86, R89). -/
theorem assemble_cases (maxLabels : Nat) (isIdent : List Char → Bool) (src : List Char) :
    (∃ e, passOne maxLabels 0 [] (linesOf isIdent src) = .error e ∧ assemble maxLabels isIdent src = .error e) ∨
    ∃ labels, passOne maxLabels 0 [] (linesOf isIdent src) = .ok labels ∧
      assemble maxLabels isIdent src = passTwo 0 labels (linesOf isIdent src) := by
  cases h : passOne maxLabels 0 [] (linesOf isIdent src) with
  | error e => exact .inl ⟨e, rfl, by simp [assemble, h]⟩
  | ok labels => exact .inr ⟨labels, rfl, by simp [assemble, h]⟩

/-- Settles O43: an image is the answer of pass 2. -/
theorem imageIsTheBytesOfTheLines : Obligations.ImageIsTheBytesOfTheLines := by
  intro maxLabels isIdent src image h
  rcases assemble_cases maxLabels isIdent src with ⟨e, -, he⟩ | ⟨labels, -, he⟩ <;> rw [he] at h
  · exact nomatch h
  · exact passTwo_eq_ok h

/-- Settles O46: only pass 2 counts operands, it takes the error from the parse of a line, and an instruction line
stands in the source under its number. -/
theorem wrongOperandCountNamesItsLine : Obligations.WrongOperandCountNamesItsLine := by
  refine ⟨fun maxLabels isIdent src n h => ?_, fun position labels n m ops op rest hm hlen => ?_⟩
  · rcases assemble_cases maxLabels isIdent src with ⟨e, h1, he⟩ | ⟨labels, -, he⟩ <;> rw [he] at h
    · obtain rfl := Except.error.inj h
      simpa using passOne_error h1
    · obtain ⟨line, tokens, hmem, hp⟩ := passTwo_eq_operandCount h
      obtain ⟨rfl, m, ops, op, rfl, hm, hlen⟩ := parseTokens_eq_operandCount.mp hp
      obtain ⟨k, text, rfl, htext, htokens⟩ := mem_classifyFrom hmem
      exact ⟨k, text, m, ops, op, Nat.add_comm 1 k, htext, htokens, hm, hlen⟩
  · exact passTwo_of_parse_error rest (parseTokens_eq_operandCount.mpr ⟨rfl, m, ops, op, rfl, hm, hlen⟩)

/-! ## Lines that name no label -/

/-- A line that stands for an instruction is an instruction line, and parses to one that names no label and has the
bytes of that instruction's encoding (R91). -/
theorem eq_instr_of_toInstr? {l : AsmLine} {i : Instr} (h : l.toInstr? = some i) :
    ∃ line tokens a, l = .instr line tokens ∧ parseTokens line tokens = .ok a ∧ a.label? = none ∧
      a.bytes = encode i := by
  cases l with
  | label name => exact nomatch h
  | instr line tokens =>
    cases hp : parseTokens line tokens with
    | error e => simp [AsmLine.toInstr?, hp] at h
    | ok a =>
      obtain ⟨hbytes, hlabel⟩ := toInstr?_spec (a := a) (i := i) (by simpa [AsmLine.toInstr?, hp] using h)
      exact ⟨line, tokens, a, rfl, hp, hlabel, hbytes⟩

theorem passTwo_of_toInstr? (position : Nat) (labels : LabelTable) {lines : List AsmLine} {instrs : List Instr}
    (h : lines.map AsmLine.toInstr? = instrs.map some) :
    passTwo position labels lines = .ok (instrs.flatMap encode) := by
  induction lines generalizing position instrs with
  | nil =>
    obtain rfl : instrs = [] := by simpa using h.symm
    rfl
  | cons l lines ih =>
    cases instrs with
    | nil => exact nomatch h
    | cons i instrs =>
      obtain ⟨hl, hlines⟩ := List.cons.inj h
      obtain ⟨line, tokens, a, rfl, hp, hlabel, hbytes⟩ := eq_instr_of_toInstr? hl
      rw [passTwo_of_label_eq_none lines hp hlabel, ih _ hlines, hbytes]
      rfl

/-- A text whose lines all stand for instructions assembles to their encodings (R91). -/
theorem assemble_of_toInstr? (maxLabels : Nat) {isIdent : List Char → Bool} {src : List Char} {instrs : List Instr}
    (h : (linesOf isIdent src).map AsmLine.toInstr? = instrs.map some) :
    assemble maxLabels isIdent src = .ok (instrs.flatMap encode) := by
  have hlabels : ∀ name, AsmLine.label name ∉ linesOf isIdent src := fun name hmem => by
    have hnone : none ∈ instrs.map some := h ▸ List.mem_map.mpr ⟨.label name, hmem, rfl⟩
    simp at hnone
  simp [assemble, passOne_of_no_label _ _ _ hlabels, passTwo_of_toInstr? _ _ h]

/-! ## Canonical text -/

/-- The tokens of an instruction's canonical line (R82, R85); none for IF and JMP. -/
def sourceTokens : Instr → List (List Char)
  | .exit => [['E', 'X', 'I', 'T']]
  | .store r imm => [['S', 'T', 'O', 'R', 'E'], 'R' :: decimalOf r ++ [','], decimalOf imm]
  | .load r imm => [['L', 'O', 'A', 'D'], 'R' :: decimalOf r ++ [','], decimalOf imm]
  | .add d s imm => [['A', 'D', 'D'], 'R' :: decimalOf d ++ [','], 'R' :: decimalOf s ++ [','], decimalOf imm]
  | .sub d s imm => [['S', 'U', 'B'], 'R' :: decimalOf d ++ [','], 'R' :: decimalOf s ++ [','], decimalOf imm]
  | .ifImm _ _ => []
  | .jmp _ => []
  | .dpr r => [['D', 'P', 'R'], 'R' :: decimalOf r]

/-- A canonical line is its tokens with a space between them. -/
theorem sourceLine?_eq_intercalate {i : Instr} {l : List Char} (h : sourceLine? i = some l) :
    l = [' '].intercalate (sourceTokens i) := by
  cases i with
  | ifImm | jmp => exact nomatch h
  | exit =>
    obtain rfl := Option.some.inj h
    rfl
  | store | load | add | sub | dpr =>
    obtain rfl := Option.some.inj h
    simp [sourceTokens, List.intercalate_cons_cons]

theorem isWord_register (r : Byte) : IsWord ('R' :: decimalOf r) := (isWord_decimalOf r).cons 'R' rfl

/-- The mnemonics are words (R82). -/
theorem isWord_of_mnemonicOf? {t : List Char} {op : Opcode} (h : mnemonicOf? t = some op) : IsWord t := by
  unfold mnemonicOf? at h
  split_ifs at h <;> subst t <;> exact ⟨by simp, by simp [Char.isWhitespace]⟩

theorem isWord_of_mem_sourceTokens {i : Instr} : ∀ w ∈ sourceTokens i, IsWord w := by
  cases i <;> simp only [sourceTokens, List.forall_mem_cons]
  case exit => exact ⟨isWord_of_mnemonicOf? rfl, by simp⟩
  case store r imm | load r imm =>
    exact ⟨isWord_of_mnemonicOf? rfl, (isWord_register r).comma, isWord_decimalOf imm, by simp⟩
  case add d s imm | sub d s imm =>
    exact ⟨isWord_of_mnemonicOf? rfl, (isWord_register d).comma, (isWord_register s).comma, isWord_decimalOf imm,
      by simp⟩
  case ifImm | jmp => simp
  case dpr r => exact ⟨isWord_of_mnemonicOf? rfl, isWord_register r, by simp⟩

/-- Words with a space between them are the tokens of their line. -/
theorem tokensOf_intercalate {ws : List (List Char)} (h : ∀ w ∈ ws, IsWord w) :
    tokensOf ([' '].intercalate ws) = ws := by
  induction ws with
  | nil => rfl
  | cons w ws ih =>
    obtain ⟨hw, hws⟩ := List.forall_mem_cons.mp h
    cases ws with
    | nil => simpa using tokensOf_word hw
    | cons w' ws =>
      rw [List.intercalate_cons_cons, List.append_assoc, List.singleton_append, tokensOf_word_space _ hw, ih hws]

/-- Words with a space between them are one line. -/
theorem newline_notMem_intercalate {ws : List (List Char)} (h : ∀ w ∈ ws, IsWord w) :
    '\n' ∉ [' '].intercalate ws := by
  induction ws with
  | nil => simp
  | cons w ws ih =>
    obtain ⟨hw, hws⟩ := List.forall_mem_cons.mp h
    have hnew : '\n' ∉ w := fun hmem => absurd (hw.2 _ hmem) (by decide)
    cases ws with
    | nil => simpa using hnew
    | cons w' ws =>
      rw [List.intercalate_cons_cons]
      simpa [hnew] using ih hws

@[simp] theorem stripComma_register_comma (r : Byte) :
    stripComma ('R' :: (decimalOf r ++ [','])) = 'R' :: decimalOf r :=
  stripComma_comma ('R' :: decimalOf r)

section Canonical
variable {i : Instr} {l : List Char} (h : sourceLine? i = some l)
include h

/-- The canonical line of an instruction is an instruction line with its tokens (R80). -/
theorem classifyLine_sourceLine (isIdent : List Char → Bool) (number : Nat) :
    classifyLine isIdent number l = some (.instr number (sourceTokens i)) := by
  have htokens : tokensOf l = sourceTokens i := by
    rw [sourceLine?_eq_intercalate h, tokensOf_intercalate isWord_of_mem_sourceTokens]
  cases i with
  | exit => simp [classifyLine, htokens, sourceTokens]
  | store | load | add | sub | dpr => exact classifyLine_of_tokens isIdent number htokens
  | ifImm | jmp => exact nomatch h

/-- The tokens of a canonical line stand for the instruction (R82-R85). -/
theorem toInstr?_sourceTokens (number : Nat) : (AsmLine.instr number (sourceTokens i)).toInstr? = some i := by
  cases i with
  | ifImm | jmp => exact nomatch h
  | exit => rfl
  | store | load | add | sub | dpr =>
    simp [AsmLine.toInstr?, sourceTokens, parseTokens, mnemonicOf?, parseOperands, AsmInstr.toInstr?, bind,
      Except.bind, pure, Except.pure]

theorem newline_notMem_sourceLine : '\n' ∉ l :=
  sourceLine?_eq_intercalate h ▸ newline_notMem_intercalate isWord_of_mem_sourceTokens

end Canonical

/-- Canonical lines, and the empty line after the last newline, stand for their instructions. -/
theorem toInstr?_classifyFrom (isIdent : List Char → Bool) (number : Nat) {instrs : List Instr}
    {lines : List (List Char)} (h : instrs.map sourceLine? = lines.map some) :
    (classifyFrom isIdent number (lines ++ [[]])).map AsmLine.toInstr? = instrs.map some := by
  induction lines generalizing number instrs with
  | nil =>
    obtain rfl : instrs = [] := by simpa using h
    rfl
  | cons l lines ih =>
    cases instrs with
    | nil => exact nomatch h
    | cons i instrs =>
      obtain ⟨hi, hlines⟩ := List.cons.inj h
      simp [classifyFrom, classifyLine_sourceLine hi, toInstr?_sourceTokens hi, ih _ hlines]

/-- The canonical text of instructions that name no label stands for them (R91). -/
theorem toInstr?_linesOf_sourceText (isIdent : List Char → Bool) {instrs : List Instr} {lines : List (List Char)}
    (h : instrs.map sourceLine? = lines.map some) :
    (linesOf isIdent (sourceText lines)).map AsmLine.toInstr? = instrs.map some := by
  have hnew : ∀ l ∈ lines, '\n' ∉ l := fun l hl => by
    obtain ⟨i, -, hi⟩ := List.mem_map.mp (h ▸ List.mem_map_of_mem hl : some l ∈ instrs.map sourceLine?)
    exact newline_notMem_sourceLine hi
  rw [linesOf, rawLines_sourceText hnew]
  exact toInstr?_classifyFrom isIdent 1 h

/-- Settles O44: the two passes answer the encodings of lines that stand for instructions, and the lines of canonical
text do. -/
theorem labelFreeTextAssemblesToItsEncoding : Obligations.LabelFreeTextAssemblesToItsEncoding :=
  ⟨fun maxLabels _ _ _ h => assemble_of_toInstr? maxLabels h, fun maxLabels isIdent _ _ h =>
    have hlines := toInstr?_linesOf_sourceText isIdent h
    ⟨hlines, assemble_of_toInstr? maxLabels hlines⟩⟩

end Sys2Proof.Machine
end

section
/-! PROOFS. The execution loop of 40_execution_loop.md: what an instruction that completes leaves, which instruction a
step runs, and everything a step leaves. -/

namespace Sys2Proof.Machine

/-! ## Instructions that complete -/

/-- An instruction with valid indices, other than EXIT, completes: its write, then the advance (R105-R107). -/
theorem exec_completes {i : Instr} {s : State} {n : Nat} (hwf : i.wf s.nreg = true) (hgo : goesOnTo i s = some n) :
    ∃ t, exec i s = .next t ∧ t.debugOut = (effectOf i s).debugOut ∧ t.regs = (effectOf i s).regs ∧ SameRam s t ∧
      GoesOnAt s t n :=
  ⟨_, exec_of_wf hwf hgo, advanceTo_debug _ n, advanceTo_regs _ n, sameRam_effect i s n, goesOnAt_effect i s n⟩

/-- An instruction whose write is `v` to register `d` completes with `v` there and everything else as it was. -/
theorem exec_completes_of_writeReg {i : Instr} {s : State} {n : Nat} {d v : Byte} (hwf : i.wf s.nreg = true)
    (hgo : goesOnTo i s = some n) (heffect : effectOf i s = s.writeReg d v) (hd : d.toNat < s.nreg) :
    ∃ t, exec i s = .next t ∧ t.reg d = v ∧ SameRegsExcept s t d ∧ SameRam s t ∧ t.debugOut = s.debugOut ∧
      GoesOnAt s t n := by
  obtain ⟨t, ht, hdebug, hregs, hram, hgoes⟩ := exec_completes hwf hgo
  rw [heffect] at hdebug hregs
  refine ⟨t, ht, ?_, ⟨?_, fun j hj => ?_⟩, hram, hdebug, hgoes⟩
  · rw [reg_of_regs hregs, reg_writeReg_same s d v hd]
  · rw [nreg_of_regs hregs, nreg_writeReg]
  · rw [reg_of_regs hregs, reg_writeReg_other s d j v hj]

/-- Settles O10: STORE's write is the immediate. -/
theorem storeWritesTheImmediate : Obligations.StoreWritesTheImmediate := fun _ _ _ hr =>
  exec_completes_of_writeReg (wf_instr_iff.mpr (by simpa [Instr.regOperands])) rfl rfl hr

/-- Settles O11: LOAD's write is STORE's, and so is its whole meaning. -/
theorem loadWritesTheImmediate : Obligations.LoadWritesTheImmediate :=
  ⟨fun _ _ _ hr => exec_completes_of_writeReg (wf_instr_iff.mpr (by simpa [Instr.regOperands])) rfl rfl hr,
    fun _ _ _ => rfl⟩

/-- Settles O12: ADD's write is the ALU's sum. -/
theorem addWritesTheSum : Obligations.AddWritesTheSum := by
  intro s d src imm hd hsrc
  obtain ⟨t, ht, hreg, hrest⟩ := exec_completes_of_writeReg (i := .add d src imm)
    (wf_instr_iff.mpr (by simp [Instr.regOperands, hd, hsrc])) rfl rfl hd
  exact ⟨t, ht, by rw [hreg, toNat_addResult], hrest⟩

/-- Settles O13: SUB's write is the ALU's difference. -/
theorem subWritesTheDifference : Obligations.SubWritesTheDifference := by
  intro s d src imm hd hsrc
  obtain ⟨t, ht, hreg, hrest⟩ := exec_completes_of_writeReg (i := .sub d src imm)
    (wf_instr_iff.mpr (by simp [Instr.regOperands, hd, hsrc])) rfl rfl hd
  exact ⟨t, ht, by rw [hreg, toNat_subResult], hrest⟩

/-- Settles O17: IF writes nothing. -/
theorem ifFallsThrough : Obligations.IfFallsThrough := by
  intro s r imm hr
  obtain ⟨t, ht, hdebug, hregs, hram, hgoes⟩ := exec_completes (i := .ifImm r imm)
    (wf_instr_iff.mpr (by simpa [Instr.regOperands])) rfl
  exact ⟨t, ht, hregs, hram, hdebug, hgoes⟩

/-- Settles O19: JMP has no index to check and writes nothing, and its target byte fits in pc. -/
theorem jmpGoesToItsTargetByte : Obligations.JmpGoesToItsTargetByte := by
  intro s target
  obtain ⟨t, ht, hdebug, hregs, hram, hgoes⟩ := exec_completes (i := .jmp target) (s := s) rfl rfl
  have hpc : t.pc.toNat = target.toNat := by
    have hfits : target.toNat < 2 ^ 32 := target.isLt.trans (by decide)
    rw [hgoes.1, BitVec.toNat_ofNat, Nat.mod_eq_of_lt hfits]
  exact ⟨t, ht, hregs, hram, hdebug, hgoes, hpc⟩

/-- Settles O21: DPR's write is its event. -/
theorem dprAppendsOneEvent : Obligations.DprAppendsOneEvent := fun _ r hr =>
  exec_completes (i := .dpr r) (wf_instr_iff.mpr (by simpa [Instr.regOperands])) rfl

/-! ## The instruction at pc -/

/-- The fetch reads the instruction whose encoding stands at pc (R101-R104). -/
theorem fetchInstr_of_runsAt {s : State} {i : Instr} (h : RunsAt s (encode i)) : s.fetchInstr = .ok i := by
  have hbyte {k : Nat} (hk : k ≤ i.opcode.noper) : s.memRead (s.pc.toNat + k) = (encode i).getD k 0 :=
    memRead_of_runsAt h (by rw [length_encode]; omega)
  have hopcode : Opcode.ofByte? (s.memRead s.pc.toNat) = some i.opcode := by
    simpa [encode] using congrArg Opcode.ofByte? (hbyte (Nat.zero_le _))
  obtain ⟨-, hin, -⟩ := h
  rw [length_encode] at hin
  have hinstr : i.opcode.instr (fun k => (encode i).getD k 0) = i := by
    simpa [encode] using instr_operandBytes i []
  rw [fetchInstr_of_legal hopcode, if_pos (by omega), instr_congr i.opcode fun _ _ hk => hbyte hk, hinstr]

/-- A Running CORE runs the instruction whose encoding stands at pc (R108). -/
theorem step_of_runsAt {s : State} {i : Instr} (h : RunsAt s (encode i)) : step s = exec i s := by
  have henabled : s.stepEnabled = true := by
    obtain ⟨hrun, hin, -⟩ := h
    rw [length_encode] at hin
    exact stepEnabled_iff.mpr ⟨hrun, by omega⟩
  simp [step, henabled, fetchInstr_of_runsAt h]

/-- Settles O4: bytes that decode to exactly one instruction are its encoding. -/
theorem stepRunsTheDecodedInstruction : Obligations.StepRunsTheDecodedInstruction := by
  intro s bytes i h hdecode
  have hbytes : bytes = encode i := by simpa using eq_encode_append_of_decode hdecode
  exact step_of_runsAt (hbytes ▸ h)

/-! ## Everything a step leaves -/

theorem toByte_eq_zero_iff {op : Opcode} : op.toByte = 0 ↔ op = .exit := by cases op <;> decide

theorem instr_eq_exit_iff {op : Opcode} {b : Nat → Byte} : op.instr b = .exit ↔ op = .exit := by
  cases op <;> simp [Opcode.instr]

/-- Everything the next state of a step can be: a fault raised before the advance, a halt at an EXIT byte, or a write
and an advance. -/
theorem step_next_cases {s t : State} (h : step s = .next t) :
    (s.memRead s.pc.toNat ≠ 0 ∧ ∃ c, (∀ a, c ≠ .outOfBounds .pcAdvance a) ∧ t = s.raise c) ∨
    (s.memRead s.pc.toNat = 0 ∧ t = s.halt) ∨
    (s.memRead s.pc.toNat ≠ 0 ∧ ∃ i n, t = (effectOf i s).advanceTo n) := by
  have henabled := stepEnabled_of_next h
  obtain ⟨-, hpc⟩ := stepEnabled_iff.mp henabled
  rcases step_cases henabled with ⟨h8, hs⟩ | ⟨op, hop, ⟨hout, hs⟩ | ⟨-, hs⟩⟩
  · obtain rfl := Host.Outcome.next.inj (hs.symm.trans h)
    exact .inl ⟨fun h0 => by simp [h0] at h8, _, by simp, rfl⟩
  · obtain rfl := Host.Outcome.next.inj (hs.symm.trans h)
    have hne : op ≠ .exit := by rintro rfl; exact absurd hout (Nat.not_le.mpr hpc)
    exact .inl ⟨hop ▸ toByte_eq_zero_iff.not.mpr hne, _, by simp, rfl⟩
  · rw [hop, Ne, toByte_eq_zero_iff, ← instr_eq_exit_iff (b := fun k => s.memRead (s.pc.toNat + k))]
    rcases exec_cases (op.instr fun k => s.memRead (s.pc.toNat + k)) s with
      ⟨j, hbad, he⟩ | ⟨-, -, hexit, he⟩ | ⟨n, -, -, hne, he⟩ <;>
      obtain rfl := Host.Outcome.next.inj ((hs.trans he).symm.trans h)
    · exact .inl ⟨fun hexit => by simp [hexit, firstBad, Instr.regOperands] at hbad, _, by simp, rfl⟩
    · exact .inr (.inl ⟨hexit, rfl⟩)
    · exact .inr (.inr ⟨hne, _, n, rfl⟩)

/-- Settles O28: a fault before the advance changes run state and record alone, and an advance faults only outside
RAM. -/
theorem faultsArePrecise : Obligations.FaultsArePrecise := by
  intro s t h hfaulted
  obtain ⟨hrun, -⟩ := stepEnabled_iff.mp (stepEnabled_of_next h)
  rcases step_next_cases h with ⟨-, c, hc, rfl⟩ | ⟨-, rfl⟩ | ⟨-, i, n, rfl⟩
  · exact ⟨c, rfl, fun _ => rfl, fun a ha => absurd ha (hc a)⟩
  · exact nomatch hfaulted
  · obtain ⟨hpc, hin, hout⟩ := goesOnAt_effect i s n
    rcases Nat.lt_or_ge n s.ramSize with hlt | hle
    · rw [(hin hlt).1, hrun] at hfaulted
      exact nomatch hfaulted
    · refine ⟨_, (hout hle).2, fun hc => absurd rfl (hc n), fun a ha => ?_⟩
      obtain rfl : n = a := by simpa using ha
      exact ⟨hpc, hle⟩

/-- Settles O30: a fault leaves Faulted, an advance Running or Faulted, and neither is at an EXIT byte. -/
theorem onlyExitHalts : Obligations.OnlyExitHalts := by
  intro s t h
  obtain ⟨hrun, -⟩ := stepEnabled_iff.mp (stepEnabled_of_next h)
  rcases step_next_cases h with ⟨hne, c, -, rfl⟩ | ⟨heq, rfl⟩ | ⟨hne, i, n, rfl⟩
  · exact iff_of_false (by simp) hne
  · exact iff_of_true rfl heq
  · have hnot : ((effectOf i s).advanceTo n).run ≠ .halted := by
      rw [advanceTo_run]
      split <;> simp [hrun]
    exact iff_of_false hnot hne

/-- A step command changes nothing where no step is enabled (R113). -/
theorem stepCommand_of_run_ne_running {s : State} (h : s.run ≠ .running) : s.stepCommand = s := by
  simp [State.stepCommand, step_of_run_ne_running h]

/-- Settles O31: a step is enabled in Running only, and elsewhere the step command is none. -/
theorem terminalStatesAreLeftByResetOnly : Obligations.TerminalStatesAreLeftByResetOnly := by
  refine ⟨fun s t h => (stepEnabled_iff.mp (stepEnabled_of_next h)).1,
    fun s h => ⟨step_of_run_ne_running h, stepCommand_of_run_ne_running h⟩, fun s c h hc => ?_⟩
  cases c with
  | reset image => exact ⟨image, rfl⟩
  | step => exact absurd (stepCommand_of_run_ne_running h) hc

end Sys2Proof.Machine
end

section
/-! PROOFS. Runs and their ends (40_execution_loop.md R111, 44_control.md R153): control flow depends on no data, so a
run that comes back to an address while Running never ends, and one that ends does so within RAM_SIZE steps. -/

namespace Sys2Proof.Machine

/-! ## Runs, cut and joined -/

/-- A run of `m + n` steps is a run of `m` and a run of `n` from where it ends. -/
theorem stepsIn_add {m n : Nat} {s t : State} : StepsIn (m + n) s t ↔ ∃ u, StepsIn m s u ∧ StepsIn n u t := by
  induction m generalizing s with
  | zero => simp [StepsIn]
  | succ m ih =>
    rw [Nat.succ_add]
    simp only [StepsIn, ih]
    exact ⟨fun ⟨v, hv, u, hu, ht⟩ => ⟨u, ⟨v, hv, hu⟩, ht⟩, fun ⟨u, ⟨v, hv, hu⟩, ht⟩ => ⟨v, hv, u, hu, ht⟩⟩

theorem stepsIn_one {s t : State} : StepsIn 1 s t ↔ step s = .next t := by simp [StepsIn, StepsTo]

/-- A run of a given length ends in one state. -/
theorem StepsIn.unique {k : Nat} {s t u : State} (ht : StepsIn k s t) (hu : StepsIn k s u) : t = u := by
  induction k generalizing s with
  | zero => exact ht.symm.trans hu
  | succ k ih =>
    obtain ⟨v, hv, ht⟩ := ht
    obtain ⟨w, hw, hu⟩ := hu
    obtain rfl := Host.Outcome.next.inj (hv.symm.trans hw)
    exact ih ht hu

/-- A run that has come to a Running state was Running all along, since only a Running state has a step. -/
theorem StepsIn.run_eq_running {k : Nat} {s t : State} (h : StepsIn k s t) (ht : t.run = .running) :
    s.run = .running := by
  cases k with
  | zero => exact h ▸ ht
  | succ k =>
    obtain ⟨u, hsu, -⟩ := h
    exact (stepEnabled_iff.mp (stepEnabled_of_next hsu)).1

/-- A run never ends if it comes to Running states after arbitrarily many steps. -/
theorem neverEnds_of_unbounded {s : State}
    (h : ∀ n, ∃ k t, StepsIn (n + k) s t ∧ t.run = .running) : NeverEnds s := by
  intro n
  obtain ⟨k, t, hst, ht⟩ := h n
  obtain ⟨u, hsu, hut⟩ := stepsIn_add.mp hst
  exact ⟨u, hsu, hut.run_eq_running ht⟩

/-- A run that comes to a state from which it never ends never ends. -/
theorem NeverEnds.of_stepsIn {k : Nat} {s t : State} (h : NeverEnds t) (hst : StepsIn k s t) : NeverEnds s := by
  refine neverEnds_of_unbounded fun n => ?_
  obtain ⟨u, htu, hu⟩ := h n
  exact ⟨k, u, Nat.add_comm k n ▸ stepsIn_add.mpr ⟨t, hst, htu⟩, hu⟩

/-! ## Equal control

Control flow depends on no register value and on no debug event (R150, R152). -/

theorem SameControl.trans {s t u : State} (hst : SameControl s t) (htu : SameControl t u) : SameControl s u := by
  obtain ⟨hpc, hmem, hsize, hnreg, hrun, hfault⟩ := hst
  obtain ⟨hpc', hmem', hsize', hnreg', hrun', hfault'⟩ := htu
  exact ⟨hpc'.trans hpc, hmem'.trans hmem, hsize'.trans hsize, hnreg'.trans hnreg, hrun'.trans hrun,
    hfault'.trans hfault⟩

section SameControl
variable {s s' : State} (h : SameControl s s')
include h

theorem sameControl_raise (c : FaultCause) : SameControl (s.raise c) (s'.raise c) := by
  obtain ⟨hpc, hmem, hsize, hnreg, -, -⟩ := h
  exact ⟨hpc, hmem, hsize, hnreg, rfl, by simp [hpc]⟩

theorem sameControl_halt : SameControl s.halt s'.halt := by
  obtain ⟨hpc, hmem, hsize, hnreg, -, hfault⟩ := h
  exact ⟨hpc, hmem, hsize, hnreg, rfl, hfault⟩

theorem sameControl_effectOf_advanceTo (i : Instr) (n : Nat) :
    SameControl ((effectOf i s).advanceTo n) ((effectOf i s').advanceTo n) := by
  obtain ⟨hpc, hmem, hsize, hnreg, hrun, hfault⟩ := h
  simp [SameControl, advanceTo_run, advanceTo_fault, hpc, hmem, hsize, hnreg, hrun, hfault]

/-- An instruction leaves equal control equal. -/
theorem exec_of_sameControl {i : Instr} {t : State} (ht : exec i s = .next t) :
    ∃ t', exec i s' = .next t' ∧ SameControl t t' := by
  have ⟨hpc, _, _, hnreg, _, _⟩ := h
  have hbad : firstBad i s' = firstBad i s := by simp [firstBad, hnreg]
  have hgo : goesOnTo i s' = goesOnTo i s := by cases i <;> simp [goesOnTo, hpc]
  rw [exec_eq] at ht ⊢
  obtain rfl := Host.Outcome.next.inj ht
  refine ⟨_, rfl, ?_⟩
  rw [hbad, hgo]
  cases firstBad i s with
  | some j => exact sameControl_raise h _
  | none =>
    cases goesOnTo i s with
    | none => exact sameControl_halt h
    | some n => exact sameControl_effectOf_advanceTo h i n

/-- A step leaves equal control equal. -/
theorem step_of_sameControl {t : State} (ht : step s = .next t) : ∃ t', step s' = .next t' ∧ SameControl t t' := by
  have ⟨hpc, hmem, hsize, _, hrun, _⟩ := h
  have henabled := stepEnabled_of_next ht
  obtain ⟨-, hin⟩ := stepEnabled_iff.mp henabled
  have henabled' : s'.stepEnabled = true := by simpa [State.stepEnabled, hpc, hsize, hrun] using henabled
  have hfetch := fetchInstr_congr hpc hsize hin fun k _ _ => memRead_of_mem hmem _
  rw [step, if_pos henabled] at ht
  rw [step, if_pos henabled', hfetch]
  cases hf : s.fetchInstr with
  | ok i => exact exec_of_sameControl h (by simpa [hf] using ht)
  | error c =>
    obtain rfl : s.raise c = t := by simpa [hf] using ht
    exact ⟨_, rfl, sameControl_raise h c⟩

end SameControl

/-- Runs of one length from states of equal control end in states of equal control. -/
theorem stepsIn_of_sameControl {k : Nat} {s s' t : State} (h : SameControl s s') (ht : StepsIn k s t) :
    ∃ t', StepsIn k s' t' ∧ SameControl t t' := by
  induction k generalizing s s' with
  | zero => exact ⟨s', rfl, ht ▸ h⟩
  | succ k ih =>
    obtain ⟨u, hsu, hut⟩ := ht
    obtain ⟨u', hsu', hu⟩ := step_of_sameControl h hsu
    obtain ⟨t', hut', hteq⟩ := ih hu hut
    exact ⟨t', ⟨u', hsu', hut'⟩, hteq⟩

/-! ## Runs that come back -/

/-- A step that goes on Running sets no record. -/
theorem step_fault_of_running {s t : State} (h : step s = .next t) (ht : t.run = .running) : t.fault = s.fault := by
  rcases step_next_cases h with ⟨-, c, -, rfl⟩ | ⟨-, rfl⟩ | ⟨-, i, n, rfl⟩
  · exact nomatch ht
  · rfl
  · obtain ⟨-, hin, hout⟩ := goesOnAt_effect i s n
    rcases Nat.lt_or_ge n s.ramSize with hlt | hle
    · exact (hin hlt).2
    · exact nomatch (hout hle).1.symm.trans ht

theorem StepsIn.fault_of_running {k : Nat} {s t : State} (h : StepsIn k s t) (ht : t.run = .running) :
    t.fault = s.fault := by
  induction k generalizing s with
  | zero => exact h ▸ rfl
  | succ k ih =>
    obtain ⟨u, hsu, hut⟩ := h
    exact (ih hut).trans (step_fault_of_running hsu (hut.run_eq_running ht))

/-- A run that comes back to its first address while Running comes back to equal control. -/
theorem sameControl_of_revisit {k : Nat} {s t : State} (h : StepsIn k s t) (ht : t.run = .running)
    (hpc : t.pc = s.pc) : SameControl s t := by
  obtain ⟨hmem, hsize, hnreg⟩ := runsNeverChangeRamOrSizes s t ⟨k, h⟩
  exact ⟨hpc, hmem, hsize, hnreg, ht.trans (h.run_eq_running ht).symm, h.fault_of_running ht⟩

/-- A run that has come back to equal control does so again and again. -/
theorem exists_stepsIn_mul {k : Nat} {s t : State} (h : StepsIn k s t) (heq : SameControl s t) (n : Nat) :
    ∃ u, StepsIn (k * n) s u ∧ SameControl s u := by
  induction n with
  | zero => exact ⟨s, rfl, rfl, rfl, rfl, rfl, rfl, rfl⟩
  | succ n ih =>
    obtain ⟨u, hsu, hu⟩ := ih
    obtain ⟨v, huv, hv⟩ := stepsIn_of_sameControl hu h
    exact ⟨v, stepsIn_add.mpr ⟨u, hsu, huv⟩, heq.trans hv⟩

/-- A run that comes back to its first address while Running never ends (R153). -/
theorem neverEnds_of_revisit {k : Nat} {s t : State} (h : StepsIn (k + 1) s t) (ht : t.run = .running)
    (hpc : t.pc = s.pc) : NeverEnds s := by
  refine neverEnds_of_unbounded fun n => ?_
  obtain ⟨u, hsu, -, -, -, -, hrun, -⟩ := exists_stepsIn_mul h (sameControl_of_revisit h ht hpc) n
  have hlen : (k + 1) * n = n + k * n := by rw [Nat.succ_mul, Nat.add_comm]
  exact ⟨k * n, u, hlen ▸ hsu, hrun.trans (h.run_eq_running ht)⟩

/-- Settles O20: the jump goes to its own address, so the run comes back to it after one step. -/
theorem selfJumpNeverEnds : Obligations.SelfJumpNeverEnds := by
  intro s target h htarget
  have ⟨hrun, hin, _⟩ := h
  have hlt : target.toNat < s.ramSize := by simp only [List.length_cons] at hin; omega
  have hstep : step s = .next s := calc
    step s = exec (.jmp target) s := step_of_runsAt h
    _ = .next (s.advanceTo target.toNat) := exec_of_wf rfl rfl
    _ = .next s := by rw [advanceTo_of_lt hlt, htarget, BitVec.ofNat_toNat, BitVec.setWidth_eq]
  exact ⟨hstep, neverEnds_of_revisit (stepsIn_one.mpr hstep) hrun rfl⟩

/-! ## How long a run can be -/

/-- A run that does not end within `n` steps is Running after each number of steps up to `n`. -/
theorem exists_running_of_not_ended {s : State} {n k : Nat} (hinv : s.Inv) (hrun : s.run = .running)
    (h : ¬ ∃ k t, k ≤ n ∧ StepsIn k s t ∧ t.run ≠ .running) (hk : k ≤ n) :
    ∃ t, StepsIn k s t ∧ t.run = .running := by
  induction k with
  | zero => exact ⟨s, rfl, hrun⟩
  | succ k ih =>
    obtain ⟨t, hst, ht⟩ := ih (by omega)
    have htinv : t.Inv := Reaches.induction stepKeepsTheInvariant ⟨k, hst⟩ hinv
    obtain ⟨u, htu⟩ := exists_step_eq_next (htinv.stepEnabled ht)
    have hsu : StepsIn (k + 1) s u := stepsIn_add.mpr ⟨t, hst, stepsIn_one.mpr htu⟩
    exact ⟨u, hsu, by_contra fun hu => h ⟨k + 1, u, hk, hsu, hu⟩⟩

/-- A run that is at one address after two numbers of steps, Running at the later one, never ends. -/
theorem neverEnds_of_same_pc {i j : Nat} {s u v : State} (hij : i < j) (hu : StepsIn i s u) (hv : StepsIn j s v)
    (hrun : v.run = .running) (hpc : v.pc = u.pc) : NeverEnds s := by
  obtain ⟨d, rfl⟩ : ∃ d, j = i + (d + 1) := Nat.exists_eq_add_of_lt hij
  obtain ⟨u', hu', huv⟩ := stepsIn_add.mp hv
  obtain rfl := hu.unique hu'
  exact (neverEnds_of_revisit huv hrun hpc).of_stepsIn hu

/-- Settles O42: among RAM_SIZE + 1 Running states two are at one address, since pc lies in RAM. -/
theorem runsEndWithinRamSizeStepsOrNever : Obligations.RunsEndWithinRamSizeStepsOrNever := by
  intro s hinv hrun
  refine or_iff_not_imp_right.mpr fun hno => ?_
  have hrunning (k : Fin (s.ramSize + 1)) : ∃ t, StepsIn k s t ∧ t.run = .running :=
    exists_running_of_not_ended hinv hrun hno (Nat.le_of_lt_succ k.isLt)
  choose after hafter hafterRun using hrunning
  have hpc (k : Fin (s.ramSize + 1)) : (after k).pc.toNat < s.ramSize := by
    have hreach : Reaches s (after k) := ⟨k, hafter k⟩
    obtain ⟨-, hsize, -⟩ := runsNeverChangeRamOrSizes s _ hreach
    have henabled := (hreach.induction stepKeepsTheInvariant hinv).stepEnabled (hafterRun k)
    exact hsize ▸ (stepEnabled_iff.mp henabled).2
  obtain ⟨i, j, hne, hij⟩ := Fintype.exists_ne_map_eq_of_card_lt
    (fun k => (⟨(after k).pc.toNat, hpc k⟩ : Fin s.ramSize)) (by simp)
  have heq : (after i).pc = (after j).pc := BitVec.eq_of_toNat_eq (by simpa using hij)
  rcases Nat.lt_or_gt_of_ne (Fin.val_ne_of_ne hne) with hlt | hlt
  · exact neverEnds_of_same_pc hlt (hafter i) (hafter j) (hafterRun j) heq.symm
  · exact neverEnds_of_same_pc hlt (hafter j) (hafter i) (hafterRun i) heq

end Sys2Proof.Machine
end

section
/-! PROOFS. The arithmetic of 43_arithmetic.md: ADD and SUB of a register with itself, and the laws of the ALU's
results. -/

namespace Sys2Proof.Machine

/-! ## Equal operands -/

/-- The register cancels and what is left is the negated immediate (R141, corner cases). -/
theorem subResult_self (a c : Byte) : subResult a a c = -c := by
  rw [subResult_eq, BitVec.sub_self, BitVec.zero_sub]

/-- The negation of a byte, read on the naturals. -/
theorem toNat_neg_byte (c : Byte) : (-c).toNat = if c = 0 then 0 else 256 - c.toNat := by
  by_cases hc : c = 0
  · simp [hc]
  · rw [if_neg hc, BitVec.toNat_neg_of_pos ((BitVec.pos_iff_ne_zero c).mpr hc)]

/-- Settles O14: both operands are the value of x[d] before the write, so ADD doubles it and SUB cancels it (R142). -/
theorem equalOperandsReadTheOldValueTwice : Obligations.EqualOperandsReadTheOldValueTwice := by
  intro s d imm hd
  obtain ⟨t, hadd, hsum⟩ := exec_add_reg imm hd hd
  obtain ⟨u, hsub, hdiff⟩ := exec_sub_reg imm hd hd
  refine ⟨⟨t, hadd, ?_⟩, ⟨u, hsub, ?_⟩⟩
  · rw [hsum, toNat_addResult, Nat.two_mul]
  · rw [hdiff, subResult_self, toNat_neg_byte]

/-! ## The laws of the results -/

/-- Settles O15: a residue taken after the first two terms does not change the residue of all three. -/
theorem aluReducesOnce : Obligations.AluReducesOnce := fun a b c =>
  have hsum := toNat_addResult a b c
  have hdiff := toNat_subResult a b c
  ⟨hsum, by rw [hsum, Nat.mod_add_mod], hdiff, by rw [hdiff, Int.emod_sub_emod]⟩

/-- Settles O16: the results are sum and difference of bit vectors, each of which wraps the signed one; wrapping after
the first two terms does not change the result. -/
theorem signedReadingWraps : Obligations.SignedReadingWraps := by
  intro a b c
  constructor
  · rw [addResult_eq, BitVec.toInt_add, BitVec.toInt_add, Int.bmod_add_bmod]
  · rw [subResult_eq, BitVec.toInt_sub, BitVec.toInt_sub, Int.bmod_sub_bmod]

end Sys2Proof.Machine
end

section
/-! PROOFS. The control flow of 44_control.md: it is the same in states of equal control, and no terminating loop can
be written. -/

namespace Sys2Proof.Machine

/-- Settles O45: the fetch reads pc and RAM alone, and every way an instruction ends leaves equal control equal. -/
theorem stepKeepsEqualControl : Obligations.StepKeepsEqualControl := fun _ _ _ h ht => step_of_sameControl h ht

/-- Settles O40: the states start in equal control, so runs of one length from them end in equal control. -/
theorem controlFlowIgnoresData : Obligations.ControlFlowIgnoresData := by
  intro k s s' t hpc hmem hsize hnreg hrun hfault ht
  have hcontrol : SameControl s s' := ⟨hpc, hmem, hsize, hnreg, hrun, hfault⟩
  obtain ⟨t', ht', hpc', -, -, -, hrun', hfault'⟩ := stepsIn_of_sameControl hcontrol ht
  exact ⟨t', ht', hpc', hrun', hfault'⟩

/-- Settles O41: the revisit is in equal control with the start, so the same run follows it again and again. -/
theorem revisitedAddressNeverEnds : Obligations.RevisitedAddressNeverEnds := fun _ _ _ h ht hpc =>
  neverEnds_of_revisit h ht hpc

end Sys2Proof.Machine
end

section
/-! PROOFS. The reset command of 70_reset_and_hazards.md: it looks at the parameters of the state it meets and at
nothing else of it. -/

namespace Sys2Proof.Machine

/-- The reset loader builds the state of the configuration it is given (R200). -/
@[simp] theorem ofImage_config (c : Config) (image : List Byte) : (State.ofImage c image).config = c := by
  simp [State.config]

/-- The reset command does not look at the run state or at any other field but the parameters (R113, R202). -/
theorem apply_reset (s : State) (image : List Byte) :
    (Command.reset image).apply s = State.ofImage s.config image := rfl

/-- Settles O32: a reset depends on the state through its configuration alone, and the loader keeps the
configuration. -/
theorem nothingSurvivesAReset : Obligations.NothingSurvivesAReset := by
  refine ⟨apply_reset, fun s t image hconfig => ⟨?_, ?_⟩⟩
  · rw [apply_reset, apply_reset, hconfig]
  · rw [apply_reset, ofImage_config]

end Sys2Proof.Machine
end

section
/-! PROOFS. The faults of 60_exceptions.md: a step does what the first fault of R175's list says, and where pc then
stands. -/

namespace Sys2Proof.Machine

/-! ## R175's list and R26's table at an opcode byte -/

/-- The index places of R62's table hold the register operands of the instruction. -/
theorem regOperands_instr (op : Opcode) (b : Nat → Byte) :
    (op.instr b).regOperands = (indexPlaces op.toByte.toNat).map b := by
  cases op <;> rfl

theorem firstFault_of_illegal {s : State} (h : 8 ≤ (s.memRead s.pc.toNat).toNat) :
    firstFault s = some (.unknownInstruction (s.memRead s.pc.toNat)) := by
  simp [firstFault, h]

section Legal
variable {s : State} {op : Opcode} (hop : s.memRead s.pc.toNat = op.toByte)
include hop

/-- Where the instruction at pc goes on is the table's next address (R26). -/
theorem goesOnTo_instr : goesOnTo (op.instr fun k => s.memRead (s.pc.toNat + k)) s = nextPcByTable s := by
  rw [nextPcByTable, hop]
  cases op <;> rfl

theorem firstFault_of_operands_outside (hout : s.ramSize ≤ s.pc.toNat + op.noper) :
    firstFault s = some (.outOfBounds .operandFetch s.ramSize) := by
  have hlegal : ¬ 8 ≤ op.toByte.toNat := Nat.not_le.mpr op.toByte_lt
  simp [firstFault, hop, hlegal, operandCount_toByte, hout]

/-- With all its bytes in RAM an instruction has two faults left: its first invalid index, then the bound of pc. -/
theorem firstFault_of_operands_inside (hin : s.pc.toNat + op.noper < s.ramSize) :
    firstFault s = ((firstBad (op.instr fun k => s.memRead (s.pc.toNat + k)) s).map .invalidRegister).or
      ((nextPcByTable s).bind fun n => if s.ramSize ≤ n then some (.outOfBounds .pcAdvance n) else none) := by
  have hlegal : ¬ 8 ≤ op.toByte.toNat := Nat.not_le.mpr op.toByte_lt
  rw [firstBad, regOperands_instr]
  simp only [firstFault, hop, if_neg hlegal, operandCount_toByte, if_neg (Nat.not_le.mpr hin)]
  cases List.find? _ ((indexPlaces op.toByte.toNat).map _) with
  | some j => rfl
  | none => cases nextPcByTable s <;> rfl

end Legal

/-! ## The step -/

/-- Everything an enabled step can do, told by R175's list and R26's table: the list's fault before the advance, a
halt at an EXIT byte, or a write and an advance to the table's next address, whose bound is the last fault of the
list. -/
theorem step_cases_of_firstFault {s : State} (henabled : s.stepEnabled = true) :
    (∃ c, (∀ a, c ≠ .outOfBounds .pcAdvance a) ∧ firstFault s = some c ∧ step s = .next (s.raise c)) ∨
    (s.memRead s.pc.toNat = 0 ∧ firstFault s = none ∧ step s = .next s.halt) ∨
    (∃ i n, s.memRead s.pc.toNat ≠ 0 ∧ nextPcByTable s = some n ∧ (n ≤ s.ramSize ∨ n < 256) ∧
      firstFault s = (if s.ramSize ≤ n then some (.outOfBounds .pcAdvance n) else none) ∧
      step s = .next ((effectOf i s).advanceTo n)) := by
  rcases step_cases henabled with ⟨h8, hs⟩ | ⟨op, hop, ⟨hout, hs⟩ | ⟨hin, hs⟩⟩
  · exact .inl ⟨_, by simp, firstFault_of_illegal h8, hs⟩
  · exact .inl ⟨_, by simp, firstFault_of_operands_outside hop hout, hs⟩
  · have hfault := firstFault_of_operands_inside hop hin
    rw [← goesOnTo_instr hop] at hfault ⊢
    rcases exec_cases (op.instr fun k => s.memRead (s.pc.toNat + k)) s with
      ⟨j, hbad, he⟩ | ⟨hbad, hgo, hexit, he⟩ | ⟨n, hbad, hgo, hne, he⟩
    · exact .inl ⟨.invalidRegister j, by simp, by simp [hfault, hbad], hs.trans he⟩
    · exact .inr (.inl ⟨hop.trans (toByte_eq_zero_iff.mpr (instr_eq_exit_iff.mp hexit)),
        by simp [hfault, hbad, hgo], hs.trans he⟩)
    · exact .inr (.inr ⟨_, n, fun h0 => hne (instr_eq_exit_iff.mpr (toByte_eq_zero_iff.mp (hop.symm.trans h0))), hgo,
        goesOnTo_le (by simpa using hin) hgo, by simp [hfault, hbad, hgo], hs.trans he⟩)

/-- Settles O27: the list's fault is raised before the advance, or the advance itself finds it. -/
theorem stepRaisesTheFirstFault : Obligations.StepRaisesTheFirstFault := by
  intro s hrun hpc hnone
  rcases step_cases_of_firstFault (stepEnabled_iff.mpr ⟨hrun, hpc⟩) with
    ⟨c, -, hfirst, hs⟩ | ⟨h0, hfirst, hs⟩ | ⟨i, n, h0, -, -, hfirst, hs⟩
  · exact ⟨_, hs, by simp [hfirst], by simp [hfirst]⟩
  · exact ⟨_, hs, by simp [hfirst, hnone], by simp [hfirst, h0]⟩
  · obtain ⟨-, hin, hout⟩ := goesOnAt_effect i s n
    refine ⟨_, hs, ?_⟩
    rcases Nat.lt_or_ge n s.ramSize with hlt | hle
    · obtain ⟨hrun', hfault'⟩ := hin hlt
      rw [hrun', hfault', hfirst, if_neg (Nat.not_le.mpr hlt)]
      exact ⟨hnone, by simpa [hrun] using h0⟩
    · obtain ⟨hrun', hfault'⟩ := hout hle
      rw [hrun', hfault', hfirst, if_pos hle]
      exact ⟨rfl, rfl⟩

/-- Settles O29: only an advance moves pc, to the table's next address, which fits in pc since RAM_SIZE does. -/
theorem pcFollowsTheTable : Obligations.PcFollowsTheTable := by
  intro s t hinv h
  rcases step_cases_of_firstFault (stepEnabled_of_next h) with
    ⟨c, hc, hfirst, hs⟩ | ⟨-, -, hs⟩ | ⟨i, n, -, hnext, hn, hfirst, hs⟩ <;>
    obtain rfl := Host.Outcome.next.inj (hs.symm.trans h)
  · exact .inr ⟨rfl, .inr ⟨c, hfirst, hc⟩⟩
  · exact .inr ⟨rfl, .inl rfl⟩
  · have hfits : n < 2 ^ 32 := by have := hinv.ramSize_lt; omega
    refine .inl ⟨n, hnext, by rw [advanceTo_pc, BitVec.toNat_ofNat, Nat.mod_eq_of_lt hfits], ?_⟩
    rw [hfirst]
    split
    · exact .inr rfl
    · exact .inl rfl

/-! ## The faults before the advance -/

/-- At a legal opcode byte whose operand bytes do not all lie in RAM the fetch faults, and the step with it (R104). -/
theorem step_of_operands_outside {s : State} {op : Opcode} (henabled : s.stepEnabled = true)
    (hop : s.memRead s.pc.toNat = op.toByte) (hout : s.ramSize ≤ s.pc.toNat + op.noper) :
    FaultsWith (step s) s (.outOfBounds .operandFetch s.ramSize) := by
  have hlegal : Opcode.ofByte? (s.memRead s.pc.toNat) = some op := by rw [hop, Opcode.ofByte?_toByte]
  rw [step, if_pos henabled, fetchInstr_of_legal hlegal, if_neg (Nat.not_lt.mpr hout)]
  rfl

/-- The bytes at pc of an instruction that lies in RAM are its encoding. -/
theorem runsAt_encode_instr {s : State} {op : Opcode} (hrun : s.run = .running)
    (hop : s.memRead s.pc.toNat = op.toByte) (hin : s.pc.toNat + op.noper < s.ramSize) :
    RunsAt s (encode (op.instr fun k => s.memRead (s.pc.toNat + k))) := by
  refine ⟨hrun, by rw [length_encode, opcode_instr]; omega, ?_⟩
  rw [length_encode, encode, opcode_instr, operandBytes_instr, State.memReadBytes, List.range_succ_eq_map,
    List.map_cons, List.map_map, Nat.add_zero, hop]
  rfl

/-- A Running CORE at a 0x00 byte in RAM stands at an EXIT, which has no operand byte. -/
theorem runsAt_exit {s : State} (hrun : s.run = .running) (hpc : s.pc.toNat < s.ramSize)
    (h0 : s.memRead s.pc.toNat = 0x00) : RunsAt s [0x00] :=
  runsAt_encode_instr (op := .exit) hrun h0 hpc

/-- Settles O7: the fetch finds the operand byte outside RAM, and an EXIT byte is a whole instruction. -/
theorem operandOutsideRamFaults : Obligations.OperandOutsideRamFaults := by
  refine ⟨fun s hrun hpc h8 hout => ?_, fun s hrun hpc h0 => step_of_runsAt (i := .exit) (runsAt_exit hrun hpc h0)⟩
  obtain ⟨op, hop⟩ := Opcode.exists_toByte h8
  rw [hop, operandCount_toByte] at hout
  exact step_of_operands_outside (stepEnabled_iff.mpr ⟨hrun, hpc⟩) hop hout

/-- An instruction faults on its first invalid index before it writes anything (R171). -/
theorem exec_of_firstBad {i : Instr} {s : State} {j : Byte} (h : firstBad i s = some j) :
    FaultsWith (exec i s) s (.invalidRegister j) := by
  rw [exec_eq, h]
  rfl

theorem exec_of_invalid_first {i : Instr} {s : State} {j : Byte} {js : List Byte} (hregs : i.regOperands = j :: js)
    (hj : s.nreg ≤ j.toNat) : FaultsWith (exec i s) s (.invalidRegister j) :=
  exec_of_firstBad (by simp [firstBad, hregs, hj])

theorem exec_of_invalid_second {i : Instr} {s : State} {j k : Byte} {js : List Byte}
    (hregs : i.regOperands = j :: k :: js) (hj : j.toNat < s.nreg) (hk : s.nreg ≤ k.toNat) :
    FaultsWith (exec i s) s (.invalidRegister k) :=
  exec_of_firstBad (by simp [firstBad, hregs, Nat.not_le.mpr hj, hk])

/-- Settles O8: each instruction's operands begin with its first index, and those of ADD and SUB go on with the
second. -/
theorem invalidIndexFaultsBeforeAnyWrite : Obligations.InvalidIndexFaultsBeforeAnyWrite := fun _ _ _ _ =>
  ⟨fun ha => ⟨exec_of_invalid_first rfl ha, exec_of_invalid_first rfl ha, exec_of_invalid_first rfl ha,
      exec_of_invalid_first rfl ha, exec_of_invalid_first rfl ha, exec_of_invalid_first rfl ha⟩,
    fun ha hb => ⟨exec_of_invalid_second rfl ha hb, exec_of_invalid_second rfl ha hb⟩⟩

end Sys2Proof.Machine
end

section
/-! PROOFS. Single instructions: EXIT of 41_halt.md, IF of 44_control.md and DPR of 45_debug.md. -/

namespace Sys2Proof.Machine

/-- Settles O9: EXIT's meaning is the halt, and a step at its byte runs it. -/
theorem exitHalts : Obligations.ExitHalts := fun _ => ⟨rfl, fun h => step_of_runsAt (i := .exit) h⟩

/-- Settles O18: IF's meaning does not name the immediate, and it checks the index, not the register, and then
advances, neither of which sees a register's value. -/
theorem ifIgnoresTheComparison : Obligations.IfIgnoresTheComparison := fun s _ _ _ j v =>
  ⟨rfl, exec_eq_mapNext rfl (nreg_writeReg s j v) (raise_writeReg s j v) (halt_writeReg s j v)
    (advanceTo_writeReg s j v)⟩

/-- An instruction leaves the debug output alone, or it is a DPR with a valid index and appends its event (R35). -/
theorem exec_debugOut {i : Instr} {s t : State} (h : exec i s = .next t) :
    t.debugOut = s.debugOut ∨
    ∃ r, i = .dpr r ∧ r.toNat < s.nreg ∧ t.debugOut = s.debugOut ++ [⟨r, s.reg r⟩] := by
  rcases exec_cases i s with ⟨j, -, he⟩ | ⟨-, -, -, he⟩ | ⟨n, hbad, -, -, he⟩ <;>
    obtain rfl := Host.Outcome.next.inj (he.symm.trans h)
  · exact .inl rfl
  · exact .inl rfl
  · rw [advanceTo_debug]
    cases i with
    | dpr r => exact .inr ⟨r, rfl, by simpa [firstBad, Instr.regOperands] using hbad, rfl⟩
    | exit | store | load | add | sub | ifImm | jmp => exact .inl rfl

/-- Settles O25: a fault of the fetch emits nothing, and a DPR that emits is the instruction whose bytes stand at
pc. -/
theorem debugOutputGrowsByDprOnly : Obligations.DebugOutputGrowsByDprOnly := by
  intro s t h
  have henabled := stepEnabled_of_next h
  obtain ⟨hrun, -⟩ := stepEnabled_iff.mp henabled
  rcases step_cases henabled with ⟨-, hs⟩ | ⟨op, hop, ⟨-, hs⟩ | ⟨hin, hs⟩⟩
  · obtain rfl := Host.Outcome.next.inj (hs.symm.trans h)
    exact .inl rfl
  · obtain rfl := Host.Outcome.next.inj (hs.symm.trans h)
    exact .inl rfl
  · refine (exec_debugOut (hs.symm.trans h)).imp_right fun ⟨r, hdpr, hr, hout⟩ => ⟨r, ?_, hr, hout⟩
    have hbytes := runsAt_encode_instr hrun hop hin
    rwa [hdpr] at hbytes

end Sys2Proof.Machine
end

section
/-! PROOFS. Loading: what RAM holds after reset (70_reset_and_hazards.md R200, R201), and the placing of a word where
the next step fetches. -/

namespace Sys2Proof.Machine

/-! ## After reset -/

/-- Settles O34: the loader writes the image's bytes that lie below RAM_SIZE and no other field. -/
theorem imageIsLoadedFromOffsetZero : Obligations.ImageIsLoadedFromOffsetZero := by
  refine fun c image => ⟨ofImage_ramSize c image, fun a ha => ?_, fun extra hfull => ?_, ofImage_run c image,
    ofImage_fault c image, ofImage_debug c image⟩
  · rw [memRead_ofImage c image ha]
    split
    · next hlt => exact (List.getElem_eq_getD _).symm
    · next hge => exact List.getD_eq_default _ _ (Nat.not_lt.mp hge)
  · rw [State.ofImage, State.ofImage, List.take_append_of_le_length hfull]

/-- Settles O35: the fill puts an EXIT byte at address 0. -/
theorem emptyImageHaltsAtOnce : Obligations.EmptyImageHaltsAtOnce := by
  intro c hc
  have henabled := (imageResetHasTheInvariant c [] hc).stepEnabled (ofImage_run c [])
  obtain ⟨hrun, hpc⟩ := stepEnabled_iff.mp henabled
  have h0 : (State.ofImage c []).memRead (State.ofImage c []).pc.toNat = 0x00 :=
    memRead_ofImage c [] (by simpa using hpc)
  exact (exitHalts _).2 (runsAt_exit hrun hpc h0)

/-- Settles O36: the test configuration is in range, and an empty image leaves the canonical RAM empty. -/
theorem resetHasTheInvariant : Obligations.ResetHasTheInvariant :=
  ⟨imageResetHasTheInvariant Config.test [] (by decide), rfl⟩

/-! ## A placed word -/

/-- Bytes written inside RAM are read back. -/
theorem memReadBytes_memWriteBytes (s : State) (a : Nat) (bs : List Byte) (hwf : Memory.wf s.mem = true)
    (hin : a + bs.length ≤ s.ramSize) {n : Nat} (hn : n ≤ bs.length) :
    (s.memWriteBytes a bs).memReadBytes a n = bs.take n := by
  refine List.ext_getElem (by simpa using hn) fun k hk _ => ?_
  have hlt : k < bs.length := by simp only [length_memReadBytes] at hk; omega
  have hread : (s.memWriteBytes a bs).memRead (a + k) = bs[k] := by
    rw [memRead_memWriteBytes s a bs hwf _ (by omega), if_pos (by omega), Nat.add_sub_cancel_left]
    exact (List.getElem_eq_getD _).symm
  simpa [State.memReadBytes] using hread

/-- A byte-wise write keeps RAM canonical and inside RAM_SIZE. -/
theorem memOk_memWriteBytes {s : State} (a : Nat) (bs : List Byte) (h : s.memOk = true) :
    (s.memWriteBytes a bs).memOk = true := by
  simp only [State.memOk, Bool.and_eq_true, List.all_eq_true, decide_eq_true_eq] at h ⊢
  obtain ⟨hwf, hlt⟩ := h
  have hsize : (s.memWriteBytes a bs).ramSize = s.ramSize := by rw [memWriteBytes_eq]
  exact ⟨wf_memWriteBytes s a bs hwf, hsize ▸ mem_memWriteBytes_lt s a bs hlt⟩

@[simp] theorem length_tableBytes (nbits w : Nat) : (tableBytes nbits w).length = 4 := by simp [tableBytes]

/-- A table word that decodes to an instruction begins with its encoding. -/
theorem tableBytes_of_decodeTableWord {nbits w : Nat} {i : Instr} (h : decodeTableWord nbits w = some i) :
    ∃ rest, tableBytes nbits w = encode i ++ rest := by
  unfold decodeTableWord at h
  split at h
  · next j rest hdecode =>
    obtain rfl := Option.some.inj h
    exact ⟨rest, eq_encode_append_of_decode hdecode⟩
  · exact nomatch h

/-- Where there is room for four bytes, the instruction of a placed word stands at pc. -/
theorem runsAt_withFetchWord {s : State} {nbits w : Nat} {i : Instr} (hwf : Memory.wf s.mem = true)
    (hrun : s.run = .running) (hroom : s.pc.toNat + 4 ≤ s.ramSize) (hi : decodeTableWord nbits w = some i) :
    RunsAt (s.withFetchWord nbits w) (encode i) := by
  obtain ⟨rest, hbytes⟩ := tableBytes_of_decodeTableWord hi
  have hlen : (encode i).length ≤ (tableBytes nbits w).length := by simp [hbytes]
  have hread := memReadBytes_memWriteBytes s s.pc.toNat (tableBytes nbits w) hwf (by simpa using hroom) hlen
  rw [length_tableBytes] at hlen
  have hkeeps : s.withFetchWord nbits w = { s with mem := (s.withFetchWord nbits w).mem } := memWriteBytes_eq _ _ _
  have hpc : (s.withFetchWord nbits w).pc = s.pc := by rw [hkeeps]
  have hsize : (s.withFetchWord nbits w).ramSize = s.ramSize := by rw [hkeeps]
  refine ⟨by rw [hkeeps]; exact hrun, by rw [hpc, hsize]; omega, ?_⟩
  rw [hpc, State.withFetchWord, hread, hbytes, List.take_left]

/-- Settles O5: the word's instruction stands at pc after the write, which changes the four bytes at pc alone. -/
theorem placedWordIsTheNextInstruction : Obligations.PlacedWordIsTheNextInstruction := by
  intro s nbits w i hmem hrun hroom hi
  obtain ⟨hwf, -⟩ := Bool.and_eq_true_iff.mp hmem
  exact ⟨step_of_runsAt (runsAt_withFetchWord hwf hrun hroom hi), memOk_memWriteBytes _ _ hmem, memWriteBytes_eq _ _ _,
    fun a ha => memRead_memWriteBytes_other _ _ _ a (by simpa using ha)⟩

end Sys2Proof.Machine
end
